-- ==== Sys2Proof/Word.lean ====
section
/-! DEFINITION. The words of the PRE: bytes, 16-bit halfwords, 32-bit words and the 192-bit command
descriptor (00_scope R7, 30_encoding R45, R46). -/

namespace Sys2Proof

/-- One byte of memory; a pixel sample is one (20_memory R25, R27). -/
abbrev Byte := BitVec 8

/-- A 16-bit field: a coefficient's bits or a filter limit (00_scope R7). -/
abbrev Half := BitVec 16

/-- A 32-bit word of the descriptor: an address or a stride (30_encoding R46, R48). -/
abbrev Word := BitVec 32

/-- A command descriptor, bit 0 the least significant bit of W0 (30_encoding R45, R46). -/
abbrev Descriptor := BitVec 192

end Sys2Proof
end

