-- ==== Sys2Proof/Machine/Arith.lean ====
section
/-! DEFINITION. The arithmetic primitives the commands share (40_arithmetic). All of them work on exact
integers; nothing wraps but `trunc16` (R58, R77). -/

namespace Sys2Proof.Machine

/-- Arithmetic shift right: the floor of `v / 2^n` (40 R59). -/
def sra (v : Int) (n : Nat) : Int := v / 2 ^ n

/-- Saturation to [0, 255] (40 R60). -/
def clamp8u (v : Int) : Int := min (max v 0) 255

/-- Saturation to [-128, 127] (40 R61). -/
def clamp8s (v : Int) : Int := min (max v (-128)) 127

/-- A sample in the signed domain (40 R62). -/
def bias (s : Int) : Int := s - 128

/-- Back from the signed domain (40 R62). -/
def unbias (t : Int) : Int := t + 128

/-- Saturating signed 8-bit addition (40 R63). -/
def sadd8 (a b : Int) : Int := clamp8s (a + b)

/-- Saturating signed 8-bit subtraction (40 R63). -/
def ssub8 (a b : Int) : Int := clamp8s (a - b)

/-- Exact absolute difference (40 R64). -/
def absdiff (a b : Int) : Int := ((a - b).natAbs : Int)

/-- The low N bits read as two's complement (00_scope R9). -/
def sext (n : Nat) (v : Int) : Int := (BitVec.ofInt n v).toInt

/-- The bits read as unsigned (00_scope R9, 30_encoding R48). -/
def zext {n : Nat} (v : BitVec n) : Int := (v.toNat : Int)

/-- The low 16 bits read as two's complement (40 R65). -/
def trunc16 (v : Int) : Int := sext 16 v

/-- First transform constant, a numerator over 65536 (40 R67, 90 C1, C2). -/
def k1 : Int := 20091

/-- Second transform constant, a numerator over 65536 (40 R67, 90 C1, C2). -/
def k2 : Int := 35468

/-- `x + ((x * K1) >> 16)` (40 R68). -/
def mul1 (x : Int) : Int := x + sra (x * k1) 16

/-- `(x * K2) >> 16` (40 R69). -/
def mul2 (x : Int) : Int := sra (x * k2) 16

/-- Four results of a 1-D pass. -/
structure Quad where
  o0 : Int
  o1 : Int
  o2 : Int
  o3 : Int
  deriving DecidableEq, Repr

/-- The result with index 0 to 3. -/
def quadAt (q : Quad) (k : Nat) : Int :=
  if k = 0 then q.o0 else if k = 1 then q.o1 else if k = 2 then q.o2 else q.o3

/-- The four outputs of a butterfly from its two sums and two cross terms (40 R71, R72). -/
def butterfly (a1 b1 c1 d1 : Int) : Quad := ⟨a1 + d1, b1 + c1, b1 - c1, a1 - d1⟩

/-- `BF`, the 1-D pass of the full transform (40 R71, 90 C3). -/
def bf (i0 i1 i2 i3 : Int) : Quad :=
  butterfly (i0 + i2) (i0 - i2) (mul2 i1 - mul1 i3) (mul1 i1 + mul2 i3)

/-- `BFW`, the 1-D pass of the Walsh-Hadamard transform (40 R72). -/
def bfw (i0 i1 i2 i3 : Int) : Quad :=
  butterfly (i0 + i2) (i0 - i2) (i1 - i3) (i1 + i3)

/-- Rounding of a full-transform output (40 R74). -/
def rndT (v : Int) : Int := sra (v + 4) 3

/-- Rounding of a Walsh-Hadamard output (40 R74). -/
def rndW (v : Int) : Int := sra (v + 3) 3

/-- A sample plus a residual, saturated (40 R75). -/
def mergeSample (s r : Int) : Int := clamp8u (s + r)

/-- Half of `f1` rounded to nearest, ties toward plus infinity (40 R80). -/
def half (f1 : Int) : Int := sra (f1 + 1) 1

/-- One step of the 6-tap accumulator (40 R81). -/
def step7 (acc : Int) : Int := clamp8s (sra acc 7)

end Sys2Proof.Machine
end

