-- ==== Sys2Proof/Config.lean ====
section
/-! DEFINITION. What the spec leaves free. The open launch parameters (BPS and the set of admitted
addresses, 00_scope R7, 20_memory R37) are plain data in `State.platform`, so that every statement about
a state quantifies over them. -/

namespace Sys2Proof

/-- FREE VALUE (log 13). A command abandoned by a reset leaves each byte of its write footprint, byte by
byte, as some prefix of the command's units left it (70_reset R157, 93 U11).
`Config.unitsDone draw addr` is how many units the byte at `addr` shows after the `draw`-th abandoned
command; more than the command has counts as all of them. It has no value that Lean can know. -/
opaque Config.unitsDone : Nat → Nat → Nat

end Sys2Proof
end

