-- ==== Sys2Proof/Syntax.lean ====
section
/-! DEFINITION. The eight commands of the opcode table with the fields each uses
(30_encoding R48, R49, R50). -/

namespace Sys2Proof

/-- One constructor per row of spec/opcode_table.json. Fields a command does not use are not in it:
they have no effect (30_encoding R49). -/
inductive Instr where
  /-- Full inverse transform of one block, or with `two` of two adjacent blocks (41 R90). -/
  | itx (two : Bool) (a b : Word)
  /-- Inverse Walsh-Hadamard transform, scattered to the 16 DC entries at `b` (41 R96). -/
  | iwht (a b : Word)
  /-- DC-only shortcut (41 R99). -/
  | itxdc (a b : Word)
  /-- Shortcut for coefficients 0, 1 and 4 (41 R101). -/
  | itxac3 (a b : Word)
  /-- Outer edge, vertical direction, 6-tap kernel (42 R124). -/
  | fov (a stride : Word) (elim ilim hevt : Half)
  /-- Outer edge, horizontal direction, 6-tap kernel (42 R125). -/
  | foh (a stride : Word) (elim ilim hevt : Half)
  /-- Three inner edges, vertical direction, 4-tap kernel (42 R126). -/
  | fiv (a stride : Word) (elim ilim hevt : Half)
  /-- Three inner edges, horizontal direction, 4-tap kernel (42 R127). -/
  | fih (a stride : Word) (elim ilim hevt : Half)
  deriving DecidableEq, Repr

end Sys2Proof
end

