-- ==== Sys2Proof/WellFormed.lean ====
section
/-! DEFINITION. The host's duties on a command that its own fields decide, whatever memory and the
platform are: preconditions P3 and P5 of 70_reset R159. Every value of `Instr` has an encoding, so the
types leave nothing else to check (30_encoding R48). The machine does not call these checks: it refuses
an ill-formed command by its own checks (60_exceptions R147), and the statement IllFormedCommandsAreRefused
relates the two (log 23). -/

namespace Sys2Proof

/-- P3: every coefficient address is even (20_memory R28). -/
def Instr.coefAligned : Instr → Bool
  | .itx _ a _ => a.toNat % 2 == 0
  | .iwht a b => a.toNat % 2 == 0 && b.toNat % 2 == 0
  | .itxdc a _ => a.toNat % 2 == 0
  | .itxac3 a _ => a.toNat % 2 == 0
  | .fov _ _ _ _ _ => true
  | .foh _ _ _ _ _ => true
  | .fiv _ _ _ _ _ => true
  | .fih _ _ _ _ _ => true

/-- P5: the stride separates the sample positions, at least 16 for FOV, FIV, FIH and 8 for FOH
(20_memory R35, 90_conflicts C14). -/
def Instr.strideWide : Instr → Bool
  | .itx _ _ _ => true
  | .iwht _ _ => true
  | .itxdc _ _ => true
  | .itxac3 _ _ => true
  | .fov _ s _ _ _ => 16 ≤ s.toNat
  | .foh _ s _ _ _ => 8 ≤ s.toNat
  | .fiv _ s _ _ _ => 16 ≤ s.toNat
  | .fih _ s _ _ _ => 16 ≤ s.toNat

/-- The fields alone break no precondition. -/
def Instr.wellFormed (i : Instr) : Bool := i.coefAligned && i.strideWide

end Sys2Proof
end

