-- ==== Sys2Proof/Decode.lean ====
section
/-! DEFINITION. Descriptor fields, the opcode map, the decoder and the encoder (30_encoding R46 to R54). -/

namespace Sys2Proof

/-- `Wn = D[32n+31 : 32n]` (30_encoding R46). -/
def Descriptor.word (d : Descriptor) (n : Nat) : Word := d.extractLsb' (32 * n) 32

/-- OP, D[7:0]. -/
def Descriptor.op (d : Descriptor) : Byte := d.extractLsb' 0 8
/-- TWO, D[8]. -/
def Descriptor.two (d : Descriptor) : Bool := d.getLsbD 8
/-- RSV0, D[31:9]. -/
def Descriptor.rsv0 (d : Descriptor) : BitVec 23 := d.extractLsb' 9 23
/-- A, D[63:32]. -/
def Descriptor.a (d : Descriptor) : Word := d.extractLsb' 32 32
/-- B, D[95:64]. -/
def Descriptor.b (d : Descriptor) : Word := d.extractLsb' 64 32
/-- STRIDE, D[127:96]. -/
def Descriptor.stride (d : Descriptor) : Word := d.extractLsb' 96 32
/-- ELIM, D[143:128]. -/
def Descriptor.elim (d : Descriptor) : Half := d.extractLsb' 128 16
/-- ILIM, D[159:144]. -/
def Descriptor.ilim (d : Descriptor) : Half := d.extractLsb' 144 16
/-- HEVT, D[175:160]. -/
def Descriptor.hevt (d : Descriptor) : Half := d.extractLsb' 160 16
/-- RSV5, D[191:176], ignored (30_encoding R46, R53). -/
def Descriptor.rsv5 (d : Descriptor) : Half := d.extractLsb' 176 16

/-- The descriptor of six words written in the order W0 .. W5 (30_encoding R47). -/
def Descriptor.ofWords (w0 w1 w2 w3 w4 w5 : Word) : Descriptor := w5 ++ w4 ++ w3 ++ w2 ++ w1 ++ w0

/-- One row of the opcode map (30_encoding R50): `match` and `mask` apply to W0; `operands` takes the
row's fields (R48, R49). -/
structure OpRow where
  mnemonic : String
  matchW0 : Word
  maskW0 : Word
  operands : Descriptor → Instr

/-- The row selects the descriptor: `W0 AND mask = match` (30_encoding R50). -/
def OpRow.selects (r : OpRow) (d : Descriptor) : Bool := d.word 0 &&& r.maskW0 == r.matchW0

def rowItx : OpRow := ⟨"ITX", 0x00000001, 0xFFFFFEFF, fun d => .itx d.two d.a d.b⟩
def rowIwht : OpRow := ⟨"IWHT", 0x00000002, 0xFFFFFFFF, fun d => .iwht d.a d.b⟩
def rowItxdc : OpRow := ⟨"ITXDC", 0x00000003, 0xFFFFFFFF, fun d => .itxdc d.a d.b⟩
def rowItxac3 : OpRow := ⟨"ITXAC3", 0x00000004, 0xFFFFFFFF, fun d => .itxac3 d.a d.b⟩
def rowFov : OpRow := ⟨"FOV", 0x00000008, 0xFFFFFFFF, fun d => .fov d.a d.stride d.elim d.ilim d.hevt⟩
def rowFoh : OpRow := ⟨"FOH", 0x00000009, 0xFFFFFFFF, fun d => .foh d.a d.stride d.elim d.ilim d.hevt⟩
def rowFiv : OpRow := ⟨"FIV", 0x0000000A, 0xFFFFFFFF, fun d => .fiv d.a d.stride d.elim d.ilim d.hevt⟩
def rowFih : OpRow := ⟨"FIH", 0x0000000B, 0xFFFFFFFF, fun d => .fih d.a d.stride d.elim d.ilim d.hevt⟩

/-- The opcode map, in the spec's order (30_encoding R50). -/
def opcodeTable : List OpRow :=
  [rowItx, rowIwht, rowItxdc, rowItxac3, rowFov, rowFoh, rowFiv, rowFih]

/-- Why a descriptor is no command (30_encoding R52). -/
inductive Illegal where
  /-- RSV0 is not zero. -/
  | reservedBits (rsv0 : BitVec 23)
  /-- OP is none of the eight operation codes. -/
  | unassignedOp (op : Byte)
  /-- TWO is set and OP is not that of ITX. -/
  | twoNotItx (op : Byte)
  deriving DecidableEq, Repr

/-- The name of what is wrong with a descriptor that no row selects (30_encoding R52). -/
def illegalReason (d : Descriptor) : Illegal :=
  if d.rsv0 ≠ 0 then .reservedBits d.rsv0
  else if opcodeTable.any (fun r => r.matchW0.extractLsb' 0 8 == d.op) then .twoNotItx d.op
  else .unassignedOp d.op

/-- `decode(D)` of 30_encoding R51: if exactly one row matches, that row's command, otherwise invalid.
Total on all descriptors; it looks at nothing else. -/
def decode (d : Descriptor) : Except Illegal Instr :=
  match opcodeTable.filter (fun r => r.selects d) with
  | [r] => .ok (r.operands d)
  | _ => .error (illegalReason d)

/-- The descriptor of given fields with RSV0 and RSV5 zero (30_encoding R46). -/
def pack (op : Byte) (two : Bool) (a b stride : Word) (elim ilim hevt : Half) : Descriptor :=
  (0 : Half) ++ hevt ++ ilim ++ elim ++ stride ++ b ++ a ++ (0 : BitVec 23) ++ BitVec.ofBool two ++ op

/-- The encoder: unused and reserved fields zero, as the assembler sets them (30_encoding R50, R55). -/
def encode : Instr → Descriptor
  | .itx two a b => pack 0x01 two a b 0 0 0 0
  | .iwht a b => pack 0x02 false a b 0 0 0 0
  | .itxdc a b => pack 0x03 false a b 0 0 0 0
  | .itxac3 a b => pack 0x04 false a b 0 0 0 0
  | .fov a s e i h => pack 0x08 false a 0 s e i h
  | .foh a s e i h => pack 0x09 false a 0 s e i h
  | .fiv a s e i h => pack 0x0A false a 0 s e i h
  | .fih a s e i h => pack 0x0B false a 0 s e i h

/-- The bits of the descriptor that a command's row reads: all of W0 and the fields it uses
(30_encoding R49); the others are ignored. -/
def usedMask : Instr → Descriptor
  | .itx _ _ _ | .iwht _ _ | .itxdc _ _ | .itxac3 _ _ =>
    Descriptor.ofWords 0xFFFFFFFF 0xFFFFFFFF 0xFFFFFFFF 0 0 0
  | .fov _ _ _ _ _ | .foh _ _ _ _ _ | .fiv _ _ _ _ _ | .fih _ _ _ _ _ =>
    Descriptor.ofWords 0xFFFFFFFF 0xFFFFFFFF 0 0xFFFFFFFF 0xFFFFFFFF 0x0000FFFF

/-- The instruction the decoder reads from a descriptor whose lowest `nbits` bits are `w` and whose
other bits are zero, numbered as the opcode table numbers them. -/
def decodeTableWord (nbits w : Nat) : Option Instr :=
  (decode (BitVec.ofNat 192 (w % 2 ^ nbits))).toOption

end Sys2Proof
end

