-- ==== Sys2Proof/Machine/State.lean ====
section
/-! DEFINITION. The state of the machine, the reasons a step can stop, and the state after reset
(10_state, 60_exceptions R141 to R143, 70_reset R156). -/

namespace Sys2Proof.Machine

/-- The model's only fault. -/
inductive Fault where
  /-- Raised by `step` when the latched descriptor matches no row of the opcode map, before anything
  else is checked; records W0 (60_exceptions R141, R142). SAFE: the hardware does nothing and signals
  completion, the model stops. -/
  | illegalCommand (w0 : Word)
  deriving DecidableEq, Repr

/-- The broken preconditions, by the spec's names (60_exceptions R141, R143). Each is SAFE: the spec
gives such a command no result, and the model stops. -/
inductive Refusal where
  /-- Raised by `exec` alone, for a command that has no meaning yet; no arm is left with it. SAFE. -/
  | notModelled (mnemonic : String)
  /-- Raised by ITX, ITXDC, ITXAC3 when the launch parameter BPS is below 8. SAFE. -/
  | badParameter
  /-- Raised by ITX, IWHT, ITXDC, ITXAC3 when a coefficient address is odd; records it. SAFE. -/
  | misalignedCoef (addr : Int)
  /-- Raised by every command when an address it needs is negative, at or above 2^32, or not admitted
  by the platform; records it. SAFE. -/
  | addressRange (addr : Int)
  /-- Raised by every command when sample positions share an address, or the coefficients read meet the
  bytes written (20_memory R35). SAFE. -/
  | overlappingFootprint
  /-- Raised by every command when its footprint touches a location with read side effects
  (20_memory R36). SAFE. -/
  | notMemory
  /-- Raised by every command when another agent writes its footprint or reads its write footprint while
  it executes (20_memory R41, 60_exceptions R154). SAFE. -/
  | concurrentAccess
  deriving DecidableEq, Repr

/-- Memory: the bytes that differ from what an unlisted address reads as, in rising order of address
(20_memory R25). -/
abbrev Memory := List Host.Cell

/-- What stands at an admitted address (20_memory R36, R37). -/
inductive RegionKind where
  /-- Ordinary memory. -/
  | ram
  /-- A location whose reads have side effects. -/
  | device
  deriving DecidableEq, Repr

/-- A run of admitted addresses (20_memory R37). -/
structure Region where
  base : Nat
  size : Nat
  kind : RegionKind
  deriving DecidableEq, Repr

/-- The launch parameters of the model: BPS and the platform's memory description
(00_scope R7, 20_memory R31, R36, R37). No step changes them. -/
structure Platform where
  bps : Nat
  map : List Region
  deriving DecidableEq, Repr

/-- A memory access by an agent other than the PRE, as one event: the bytes it reads and the bytes it
writes (20_memory R41, 60_exceptions R154). -/
structure Access where
  reads : List Word
  writes : List (Word × Byte)
  deriving DecidableEq, Repr

/-- What the outside world does, in order of time (70_reset R171). -/
inductive HostEvent where
  /-- The host presents a descriptor; the PRE takes it when it is idle (30_encoding R45). -/
  | deliver (d : Descriptor)
  /-- Another agent accesses memory. -/
  | access (x : Access)
  /-- The host waits for completion: what follows comes after it (70_reset R161). -/
  | await
  /-- A reset pulse (70_reset R156, R157). -/
  | reset
  deriving DecidableEq, Repr

/-- The machine. INVENTORY.md, State, lists each field with its rule and its reset value. -/
structure State where
  mem : Memory
  latch : Option Descriptor
  inbox : List HostEvent
  platform : Platform
  completions : Nat
  draws : Nat
  deriving DecidableEq, Repr

/-- BPS 32 (PRESUMED, log 3) and every address ordinary memory (DESIGN CHOICE, log 4). -/
def Platform.launch : Platform := { bps := 32, map := [⟨0, 2 ^ 32, .ram⟩] }

/-- The PRE right after reset: idle (10_state R24, 70_reset R156), nothing delivered, memory with nothing
listed (log 2), no completion signalled and nothing drawn. -/
def State.reset : State :=
  { mem := [], latch := none, inbox := [], platform := Platform.launch, completions := 0, draws := 0 }

end Sys2Proof.Machine
end

