-- ==== Sys2Proof/Machine/Ops.lean ====
section
/-! DEFINITION. The named operations over memory, and the one operation that runs a command: its checks in
the order of 60_exceptions R147, its units of work one after another (20_memory R40), its completion
(60_exceptions R145). The PRE raises no exception and has no exception entry or return (60_exceptions
R140, R149, R150), so there is no such operation here. -/

namespace Sys2Proof.Machine

/-! ## Bytes -/

/-- What an address that memory does not list reads as (DESIGN CHOICE, log 2). -/
def unlistedByte : Byte := 0

/-- The byte at an address. -/
def Memory.read : Memory → Nat → Byte
  | [], _ => unlistedByte
  | c :: m, a => if c.1 = a then c.2 else Memory.read m a

/-- Memory without an entry for the address. -/
def Memory.erase (m : Memory) (a : Nat) : Memory := m.filter (fun c => c.1 != a)

/-- A new entry before the first entry of a higher address. -/
def Memory.insert : Memory → Nat → Byte → Memory
  | [], a, v => [(a, v)]
  | c :: m, a, v => if a < c.1 then (a, v) :: c :: m else c :: Memory.insert m a v

/-- Stores one byte and keeps the canonical form: a byte equal to the unlisted one is not listed. -/
def Memory.write (m : Memory) (a : Nat) (v : Byte) : Memory :=
  if v = unlistedByte then Memory.erase m a else Memory.insert (Memory.erase m a) a v

/-- The entries rise strictly from `lo` on, lie in [0, 2^32) and none is the unlisted byte. -/
def Memory.wfFrom (lo : Nat) : Memory → Bool
  | [] => true
  | c :: m => decide (lo ≤ c.1) && decide (c.1 < 2 ^ 32) && (c.2 != unlistedByte) && Memory.wfFrom (c.1 + 1) m

/-- Memory is in its canonical form. -/
def Memory.wf (m : Memory) : Bool := Memory.wfFrom 0 m

/-- Stores, in order, each an address and a byte. -/
abbrev Store := Int × Byte

/-- Memory after a list of stores. -/
def Memory.writeAll (m : Memory) (ws : List Store) : Memory :=
  ws.foldl (fun m w => Memory.write m w.1.toNat w.2) m

/-! ## Samples and coefficients (00_scope R10, 20_memory R26, R27) -/

/-- `MemRead(addr, n)`: the unsigned little-endian number in `n` bytes (20_memory R26). -/
def memRead (m : Memory) (a : Int) : Nat → Nat
  | 0 => 0
  | n + 1 => (m.read a.toNat).toNat + 256 * memRead m (a + 1) n

/-- The stores of `MemWrite(addr, n, v)`: the low `8n` bits of `v`, low byte first (20_memory R26). -/
def memWriteStores (a : Int) : Nat → Int → List Store
  | 0, _ => []
  | n + 1, v => (a, BitVec.ofInt 8 v) :: memWriteStores (a + 1) n (v / 256)

/-- `Pix(addr)`, a sample in [0, 255] (00_scope R10). -/
def pix (m : Memory) (a : Int) : Int := (memRead m a 1 : Int)

/-- `Coef(addr)`, a coefficient in [-32768, 32767] (00_scope R10). -/
def coef (m : Memory) (a : Int) : Int := sext 16 (memRead m a 2 : Int)

/-! ## The platform (20_memory R29, R36, R37) -/

/-- The address lies in the region. -/
def regionHolds (r : Region) (a : Int) : Bool := decide ((r.base : Int) ≤ a) && decide (a < (r.base + r.size : Nat))

/-- `Valid(addr)` of 20_memory R37. -/
def admits (pf : Platform) (a : Int) : Bool := pf.map.any (fun r => regionHolds r a)

/-- A location with read side effects stands there (20_memory R36). -/
def isDevice (pf : Platform) (a : Int) : Bool :=
  pf.map.any (fun r => (r.kind == .device) && regionHolds r a)

/-- Inside [0, 2^32) (20_memory R29). -/
def inRange (a : Int) : Bool := decide (0 ≤ a) && decide (a < 2 ^ 32)

/-! ## One command -/

/-- What a command's descriptor fixes before any access: what is checked, and the units of work, each
of which reads all it needs from memory as it finds it and answers its stores (20_memory R34, R40). -/
structure Plan where
  /-- The command addresses its pixels by BPS (60_exceptions R141, BadParameter). -/
  usesBps : Bool
  /-- Addresses that must be even (20_memory R28). -/
  coefBases : List Int
  /-- The whole coefficient arrays that must lie in valid memory (70_reset R159 P2). -/
  arrays : List Int
  /-- The coefficient bytes of the read footprint (20_memory R34). -/
  coefReads : List Int
  /-- The pixel bytes of the read footprint (20_memory R34). -/
  pixReads : List Int
  /-- The write footprint (20_memory R34). -/
  writes : List Int
  /-- Distinct sample positions have distinct addresses (20_memory R35 (a)). -/
  spaced : Bool
  /-- The units of work, in order (20_memory R40). -/
  units : List (Memory → List Store)

/-- The read footprint (20_memory R34). -/
def planReads (p : Plan) : List Int := p.coefReads ++ p.pixReads

/-- Every byte of the read and write footprints. -/
def planFootprint (p : Plan) : List Int := planReads p ++ p.writes

/-- What must lie in valid memory: the footprint and the arrays (70_reset R159 P2, P4; log 6). -/
def planExtent (p : Plan) : List Int := planFootprint p ++ p.arrays

/-- The coefficient read footprint meets the write footprint (20_memory R35 (b), (c)). -/
def planClash (p : Plan) : Bool := p.coefReads.any (fun a => p.writes.contains a)

/-- Checks (2) to (6) of 60_exceptions R147, the first that fails: the refusal, or none. -/
def verdict (p : Plan) (pf : Platform) : Option Refusal :=
  if p.usesBps && decide (pf.bps < 8) then some .badParameter
  else match p.coefBases.find? (fun a => a % 2 != 0) with
  | some a => some (.misalignedCoef a)
  | none =>
    match (planExtent p).find? (fun a => !(inRange a && admits pf a)) with
    | some a => some (.addressRange a)
    | none =>
      if !p.spaced || planClash p then some .overlappingFootprint
      else if (planFootprint p).any (fun a => isDevice pf a) then some .notMemory
      else none

/-- Memory after one unit: it reads everything, then stores (20_memory R40). -/
def runUnit (m : Memory) (u : Memory → List Store) : Memory := m.writeAll (u m)

/-- Memory after units, one after another (20_memory R40). -/
def runUnits (m : Memory) (us : List (Memory → List Store)) : Memory := us.foldl runUnit m

/-- The command is over: the latch is discarded and completion is signalled, once
(10_state R19, 30_encoding R45, 60_exceptions R145). -/
def complete (s : State) : State := { s with latch := none, completions := s.completions + 1 }

/-- Runs a command: refused before any access if a precondition is broken, else all of its units and
completion (60_exceptions R143, R147, R149). -/
def runCommand (p : Plan) (s : State) : Host.Outcome State Fault Refusal :=
  match verdict p s.platform with
  | some r => .refused r
  | none => .next (complete { s with mem := runUnits s.mem p.units })

/-! ## What can befall a command while it executes -/

/-- Another agent writes a byte of the command's footprints, or reads a byte it writes
(20_memory R41, 60_exceptions R154). -/
def races (p : Plan) (x : Access) : Bool :=
  x.writes.any (fun w => (planFootprint p).contains (zext w.1)) ||
  x.reads.any (fun a => p.writes.contains (zext a))

/-- The access of another agent takes effect. -/
def hostAccess (x : Access) (s : State) : State :=
  { s with mem := s.mem.writeAll (x.writes.map (fun w => (zext w.1, w.2))) }

/-- An access that lands while the command executes: check (7) of 60_exceptions R147, after the others. -/
def contend (p : Plan) (x : Access) (s : State) : Host.Outcome State Fault Refusal :=
  match verdict p s.platform with
  | some r => .refused r
  | none => if races p x then .refused .concurrentAccess else .next (hostAccess x s)

/-- Memory as the first `k` units of the command leave it (all of them if there are fewer). -/
def memAfter (p : Plan) (m : Memory) (k : Nat) : Memory := runUnits m (p.units.take k)

/-- The stores that leave each byte of the write footprint as some prefix of the units left it, each
byte by a free value of its own (70_reset R157, 93 U11, log 13). -/
def abandonedStores (p : Plan) (s : State) : List Store :=
  p.writes.map (fun a => (a, (memAfter p s.mem (Config.unitsDone s.draws a.toNat)).read a.toNat))

/-- A reset while the command executes: it is abandoned, no completion is signalled, the PRE is idle
(70_reset R156, R157). -/
def abandon (p : Plan) (s : State) : Host.Outcome State Fault Refusal :=
  match verdict p s.platform with
  | some r => .refused r
  | none => .next { s with mem := s.mem.writeAll (abandonedStores p s), latch := none, draws := s.draws + 1 }

end Sys2Proof.Machine
end

