-- ==== Sys2Proof/Machine/Operands.lean ====
section
/-! DEFINITION. Operand forms: the address functions, the objects they lay out and the byte sets of the
footprints (20_memory R30 to R34, 42_deblock R105). Addresses are unbounded integers (20_memory R29). -/

namespace Sys2Proof.Machine

/-- The `n` byte addresses from `a` on (20_memory R34). -/
def span (a : Int) (n : Nat) : List Int := (List.range n).map (fun k : Nat => a + (k : Int))

/-- Address of coefficient `i` of the block at `a` (20_memory R30). -/
def coefAddr (a : Int) (i : Nat) : Int := a + 2 * (i : Int)

/-- Address of the sample at column `x`, row `y` of the 4x4 region at `b` (20_memory R31). -/
def pixAddr (bps : Nat) (b : Int) (x y : Nat) : Int := b + (y : Int) * (bps : Int) + (x : Int)

/-- Address of the DC entry of sub-block `i` in the 256-entry array at `b` (20_memory R32). -/
def outAddr (b : Int) (i : Nat) : Int := b + 32 * (i : Int)

/-- Address of tap `k` of lane `l` of an edge (20_memory R33). -/
def tapAddr (e0 step lane : Int) (l : Nat) (k : Int) : Int := e0 + (l : Int) * lane + k * step

/-- The 16 addresses of a 4x4 region, row by row: `Blk(B)` (20_memory R34). -/
def blkAddrs (bps : Nat) (b : Int) : List Int :=
  (List.range 4).flatMap (fun y => (List.range 4).map (fun x => pixAddr bps b x y))

/-- All eight taps of a lane (42_deblock R105). -/
def allTaps : List Int := [-4, -3, -2, -1, 0, 1, 2, 3]

/-- The addresses of the given taps in the 16 lanes of an edge (20_memory R34). -/
def edgeAddrs (e0 step lane : Int) (taps : List Int) : List Int :=
  (List.range 16).flatMap (fun l => taps.map (fun k => tapAddr e0 step lane l k))

/-- The eight samples of a lane, `p3 = s[-4]` to `q3 = s[3]`; the edge lies between `p0` and `q0`
(42_deblock R105). -/
structure Lane where
  p3 : Int
  p2 : Int
  p1 : Int
  p0 : Int
  q0 : Int
  q1 : Int
  q2 : Int
  q3 : Int
  deriving DecidableEq, Repr

/-- The sample at tap `k`. -/
def laneTap (n : Lane) (k : Int) : Int :=
  if k = -4 then n.p3 else if k = -3 then n.p2 else if k = -2 then n.p1 else if k = -1 then n.p0
  else if k = 0 then n.q0 else if k = 1 then n.q1 else if k = 2 then n.q2 else n.q3

/-- The samples of lane `l` of an edge, read from memory (42_deblock R105). -/
def readLane (m : Memory) (e0 step lane : Int) (l : Nat) : Lane :=
  let s := fun k : Int => pix m (tapAddr e0 step lane l k)
  ⟨s (-4), s (-3), s (-2), s (-1), s 0, s 1, s 2, s 3⟩

/-- The three filter limits, unsigned and used as given (30_encoding R48). -/
structure Limits where
  elim : Int
  ilim : Int
  hevt : Int
  deriving DecidableEq, Repr

/-- The limits of a descriptor's fields (30_encoding R48). -/
def limitsOf (elim ilim hevt : Half) : Limits := ⟨zext elim, zext ilim, zext hevt⟩

/-- The byte of a sample (00_scope R10; every rule that writes a sample clamps first). -/
def sampleByte (v : Int) : Byte := BitVec.ofInt 8 v

end Sys2Proof.Machine
end

