-- ==== Sys2Proof/Machine/Flags.lean ====
section
/-! DEFINITION. The transient predicates of a filtered lane (10_state R20, 42_deblock R106 to R112). The PRE
has no persistent flags (10_state R17); these live within one edge of one command. -/

namespace Sys2Proof.Machine

/-- `max(|p1-p0|, |q1-q0|)` (42 R107). -/
def laneAct (n : Lane) : Int := max (absdiff n.p1 n.p0) (absdiff n.q1 n.q0)

/-- High edge variance: the activity exceeds HEVT (42 R108, 90 C5, C11). -/
def laneHev (lim : Limits) (n : Lane) : Bool := decide (laneAct n > lim.hevt)

/-- `2*|p0-q0| + (|p1-q1| >> 1)`, not saturated (42 R109). -/
def laneD0 (n : Lane) : Int := 2 * absdiff n.p0 n.q0 + sra (absdiff n.p1 n.q1) 1

/-- The six threshold violations, all strict (42 R110). -/
def laneExceed (lim : Limits) (n : Lane) : Bool :=
  decide (laneD0 n > lim.elim) || decide (absdiff n.p3 n.p2 > lim.ilim) ||
  decide (absdiff n.p2 n.p1 > lim.ilim) || decide (absdiff n.q3 n.q2 > lim.ilim) ||
  decide (absdiff n.q2 n.q1 > lim.ilim) || decide (laneAct n > lim.ilim)

/-- Filter enable: the lane is filtered where it is true (42 R111, 90 C4). -/
def laneMask (lim : Limits) (n : Lane) : Bool := !laneExceed lim n

end Sys2Proof.Machine
end

