-- ==== Sys2Proof/Machine/Deblock.lean ====
section
/-! DEFINITION. The deblocking kernels and the commands FOV, FOH, FIV, FIH (42_deblock_filter). -/

namespace Sys2Proof.Machine

/-! ## The 2-tap update (42 R113 to R115) -/

/-- `DELTA(P1, P0, Q0, Q1, gate)` (42 R114). -/
def delta (P1 P0 Q0 Q1 : Int) (gate : Bool) : Int :=
  clamp8s ((if gate then clamp8s (P1 - Q1) else 0) + 3 * (Q0 - P0))

/-- `f1` of the 2-tap update, subtracted from the q side (42 R115). -/
def tapF1 (f : Int) : Int := sra (clamp8s (f + 4)) 3

/-- `f2` of the 2-tap update, added to the p side (42 R115). -/
def tapF2 (f : Int) : Int := sra (clamp8s (f + 3)) 3

/-! ## The kernels -/

/-- The 4-tap filter value of a lane (42 R116). -/
def filt4 (lim : Limits) (n : Lane) : Int :=
  if laneMask lim n then delta (bias n.p1) (bias n.p0) (bias n.q0) (bias n.q1) (laneHev lim n) else 0

/-- `F4`, the 4-tap kernel (42 R117). -/
def kernelF4 (lim : Limits) (n : Lane) : Lane :=
  let f1 := tapF1 (filt4 lim n)
  let f2 := tapF2 (filt4 lim n)
  let f3 := half f1
  { n with
    p1 := if laneHev lim n then n.p1 else unbias (sadd8 (bias n.p1) f3)
    p0 := unbias (sadd8 (bias n.p0) f2)
    q0 := unbias (ssub8 (bias n.q0) f1)
    q1 := if laneHev lim n then n.q1 else unbias (ssub8 (bias n.q1) f3) }

/-- The 6-tap filter value of a lane, without the hev gate (42 R119). -/
def filt6 (n : Lane) : Int := delta (bias n.p1) (bias n.p0) (bias n.q0) (bias n.q1) true

/-- The hev-gated component (42 R119). -/
def filtHev (lim : Limits) (n : Lane) : Int := if laneMask lim n && laneHev lim n then filt6 n else 0

/-- The non-hev component (42 R119). -/
def filtFlat (lim : Limits) (n : Lane) : Int := if laneMask lim n && !laneHev lim n then filt6 n else 0

/-- `F6`, the 6-tap kernel: the 2-tap update by the hev component, then the three accumulator steps by
the other (42 R120). -/
def kernelF6 (lim : Limits) (n : Lane) : Lane :=
  let fh := filtHev lim n
  let fn := filtFlat lim n
  let P0 := sadd8 (bias n.p0) (tapF2 fh)
  let Q0 := ssub8 (bias n.q0) (tapF1 fh)
  let u2 := step7 (9 * fn + 63)
  let u1 := step7 (9 * fn + 63 + 9 * fn)
  let u0 := step7 (9 * fn + 63 + 9 * fn + 9 * fn)
  { n with
    p2 := unbias (sadd8 (bias n.p2) u2)
    p1 := unbias (sadd8 (bias n.p1) u1)
    p0 := unbias (sadd8 P0 u0)
    q0 := unbias (ssub8 Q0 u0)
    q1 := unbias (ssub8 (bias n.q1) u1)
    q2 := unbias (ssub8 (bias n.q2) u2) }

/-- The kernel of an edge command: `F4` or `F6` (42 R123). -/
inductive EdgeKernel where
  | f4
  | f6
  deriving DecidableEq, Repr

/-- The lane a kernel returns (42 R117, R120). -/
def applyKernel (k : EdgeKernel) (lim : Limits) (n : Lane) : Lane :=
  match k with
  | .f4 => kernelF4 lim n
  | .f6 => kernelF6 lim n

/-- `W`, the taps a kernel writes back (42 R123). -/
def kernelTaps (k : EdgeKernel) : List Int :=
  match k with
  | .f4 => [-2, -1, 0, 1]
  | .f6 => [-3, -2, -1, 0, 1, 2]

/-! ## One edge -/

/-- `FilterEdge`: all 128 samples are read from `m`, then the taps in `W` of all 16 lanes are stored
(42 R123). -/
def filterEdge (e0 step lane : Int) (k : EdgeKernel) (lim : Limits) (m : Memory) : List Store :=
  (List.range 16).flatMap (fun l => (kernelTaps k).map (fun t =>
    (tapAddr e0 step lane l t, sampleByte (laneTap (applyKernel k lim (readLane m e0 step lane l)) t))))

/-- Footprints and units of a filter command over its edges, in order (20_memory R33, R34, R40). -/
def edgePlan (e0s : List Int) (step lane : Int) (k : EdgeKernel) (lim : Limits) (spaced : Bool) : Plan :=
  { usesBps := false
    coefBases := []
    arrays := []
    coefReads := []
    pixReads := e0s.flatMap (fun e0 => edgeAddrs e0 step lane allTaps)
    writes := e0s.flatMap (fun e0 => edgeAddrs e0 step lane (kernelTaps k))
    spaced := spaced
    units := e0s.map (fun e0 => filterEdge e0 step lane k lim) }

/-! ## The four commands -/

/-- FOV: one edge at `A`, taps one row apart (20_memory R33, R35; 42 R124, 90 C10). -/
def fovPlan (a stride : Int) (lim : Limits) : Plan :=
  edgePlan [a] stride 1 .f6 lim (decide (16 ≤ stride))

/-- FOH: one edge at `A`, taps one byte apart (20_memory R33, R35; 42 R125, 90 C10). -/
def fohPlan (a stride : Int) (lim : Limits) : Plan :=
  edgePlan [a] 1 stride .f6 lim (decide (8 ≤ stride))

/-- FIV: edges 4, 8 and 12 rows into the macroblock at `A` (20_memory R33, R35; 42 R126, 90 C7). -/
def fivPlan (a stride : Int) (lim : Limits) : Plan :=
  edgePlan [a + 4 * stride, a + 8 * stride, a + 12 * stride] stride 1 .f4 lim (decide (16 ≤ stride))

/-- FIH: edges 4, 8 and 12 columns into the macroblock at `A` (20_memory R33, R35; 42 R127, 90 C7). -/
def fihPlan (a stride : Int) (lim : Limits) : Plan :=
  edgePlan [a + 4, a + 8, a + 12] 1 stride .f4 lim (decide (16 ≤ stride))

/-- FOV (42 R124). -/
def execFov (a stride : Word) (elim ilim hevt : Half) (s : State) : Host.Outcome State Fault Refusal :=
  runCommand (fovPlan (zext a) (zext stride) (limitsOf elim ilim hevt)) s

/-- FOH (42 R125). -/
def execFoh (a stride : Word) (elim ilim hevt : Half) (s : State) : Host.Outcome State Fault Refusal :=
  runCommand (fohPlan (zext a) (zext stride) (limitsOf elim ilim hevt)) s

/-- FIV (42 R126, R128). -/
def execFiv (a stride : Word) (elim ilim hevt : Half) (s : State) : Host.Outcome State Fault Refusal :=
  runCommand (fivPlan (zext a) (zext stride) (limitsOf elim ilim hevt)) s

/-- FIH (42 R127, R128). -/
def execFih (a stride : Word) (elim ilim hevt : Half) (s : State) : Host.Outcome State Fault Refusal :=
  runCommand (fihPlan (zext a) (zext stride) (limitsOf elim ilim hevt)) s

end Sys2Proof.Machine
end

