-- ==== Sys2Proof/Machine/Transform.lean ====
section
/-! DEFINITION. The inverse transforms ITX, IWHT, ITXDC, ITXAC3 (41_inverse_transform). -/

namespace Sys2Proof.Machine

/-! ## The full transform of a block of coefficients `c[0..15]`, `c[4*v + u]` (41 R84) -/

/-- First pass, down column `u` (41 R85). -/
def passDown (c : Nat → Int) (u : Nat) : Quad := bf (c u) (c (4 + u)) (c (8 + u)) (c (12 + u))

/-- The intermediate array `T[y][u]` (41 R86). -/
def interT (c : Nat → Int) (y u : Nat) : Int := quadAt (passDown c u) y

/-- Second pass, along row `y` of the intermediate array: `O[y]` (41 R87). -/
def passAcross (c : Nat → Int) (y : Nat) : Quad :=
  bf (interT c y 0) (interT c y 1) (interT c y 2) (interT c y 3)

/-- The residual `r[y][x]` (41 R87). -/
def blockResidual (c : Nat → Int) (y x : Nat) : Int := rndT (quadAt (passAcross c y) x)

/-- The stores that merge a residual into the 4x4 region at `b`, from the samples in `m` (41 R88). -/
def mergeStores (bps : Nat) (b : Int) (r : Nat → Nat → Int) (m : Memory) : List Store :=
  (List.range 4).flatMap (fun y => (List.range 4).map (fun x =>
    (pixAddr bps b x y, sampleByte (mergeSample (pix m (pixAddr bps b x y)) (r y x)))))

/-- `c[i]`, the coefficient fetch (41 R84). -/
def blockCoef (m : Memory) (a : Int) (i : Nat) : Int := coef m (coefAddr a i)

/-- `ITXBLK(A, B)` (41 R89). -/
def itxBlk (bps : Nat) (a b : Int) (m : Memory) : List Store :=
  mergeStores bps b (blockResidual (blockCoef m a)) m

/-! ## ITX -/

/-- Footprints and units of ITX (20_memory R34, R40; 41 R90). -/
def itxPlan (two : Bool) (a b : Int) (bps : Nat) : Plan :=
  { usesBps := true
    coefBases := [a]
    arrays := span a (if two then 64 else 32)
    coefReads := span a (if two then 64 else 32)
    pixReads := if two then blkAddrs bps b ++ blkAddrs bps (b + 4) else blkAddrs bps b
    writes := if two then blkAddrs bps b ++ blkAddrs bps (b + 4) else blkAddrs bps b
    spaced := decide ((if two then 8 else 4) ≤ bps)
    units := if two then [itxBlk bps a b, itxBlk bps (a + 32) (b + 4)] else [itxBlk bps a b] }

/-- ITX (41 R90). -/
def execItx (two : Bool) (a b : Word) (s : State) : Host.Outcome State Fault Refusal :=
  runCommand (itxPlan two (zext a) (zext b) s.platform.bps) s

/-! ## IWHT -/

/-- First pass of the Walsh-Hadamard transform, down column `u` (41 R95). -/
def whtDown (w : Nat → Int) (u : Nat) : Quad := bfw (w u) (w (4 + u)) (w (8 + u)) (w (12 + u))

/-- `TW[y][u]` (41 R95). -/
def whtT (w : Nat → Int) (y u : Nat) : Int := quadAt (whtDown w u) y

/-- `OW[y][x]` (41 R95). -/
def whtO (w : Nat → Int) (y x : Nat) : Int :=
  quadAt (bfw (whtT w y 0) (whtT w y 1) (whtT w y 2) (whtT w y 3)) x

/-- `g[i]`, `i = 4*y + x` (41 R95). -/
def whtG (w : Nat → Int) (i : Nat) : Int := rndW (whtO w (i / 4) (i % 4))

/-- The 16 outputs stored at the DC entries of the array at `b` (41 R96, R97). -/
def iwhtStores (a b : Int) (m : Memory) : List Store :=
  (List.range 16).flatMap (fun i => memWriteStores (outAddr b i) 2 (trunc16 (whtG (blockCoef m a) i)))

/-- Footprints and unit of IWHT (20_memory R34, R40; 41 R96; 70_reset R159 P2). -/
def iwhtPlan (a b : Int) : Plan :=
  { usesBps := false
    coefBases := [a, b]
    arrays := span a 32 ++ span b 512
    coefReads := span a 32
    pixReads := []
    writes := (List.range 16).flatMap (fun i => span (outAddr b i) 2)
    spaced := true
    units := [iwhtStores a b] }

/-- IWHT (41 R96). -/
def execIwht (a b : Word) (s : State) : Host.Outcome State Fault Refusal :=
  runCommand (iwhtPlan (zext a) (zext b)) s

/-! ## ITXDC -/

/-- `dc = (coeff0 + 4) >> 3`, added to the 16 samples (41 R99). -/
def itxdcStores (bps : Nat) (a b : Int) (m : Memory) : List Store :=
  mergeStores bps b (fun _ _ => sra (coef m a + 4) 3) m

/-- Footprints and unit of ITXDC: coefficient 0 alone is read (20_memory R34, 41 R99; 70_reset R159 P2). -/
def itxdcPlan (a b : Int) (bps : Nat) : Plan :=
  { usesBps := true
    coefBases := [a]
    arrays := span a 32
    coefReads := span a 2
    pixReads := blkAddrs bps b
    writes := blkAddrs bps b
    spaced := decide (4 ≤ bps)
    units := [itxdcStores bps a b] }

/-- ITXDC (41 R99). -/
def execItxdc (a b : Word) (s : State) : Host.Outcome State Fault Refusal :=
  runCommand (itxdcPlan (zext a) (zext b) s.platform.bps) s

/-! ## ITXAC3 -/

/-- Coefficients 0, 1 and 4 as in memory, the others 0 (41 R101). -/
def ac3Coef (m : Memory) (a : Int) (i : Nat) : Int :=
  if i = 0 then coef m a else if i = 1 then coef m (a + 2) else if i = 4 then coef m (a + 8) else 0

/-- The full transform of that block (41 R101). -/
def itxac3Stores (bps : Nat) (a b : Int) (m : Memory) : List Store :=
  mergeStores bps b (blockResidual (ac3Coef m a)) m

/-- Footprints and unit of ITXAC3: coefficients 0, 1 and 4 alone are read (20_memory R34, 41 R101;
70_reset R159 P2). -/
def itxac3Plan (a b : Int) (bps : Nat) : Plan :=
  { usesBps := true
    coefBases := [a]
    arrays := span a 32
    coefReads := span a 4 ++ span (a + 8) 2
    pixReads := blkAddrs bps b
    writes := blkAddrs bps b
    spaced := decide (4 ≤ bps)
    units := [itxac3Stores bps a b] }

/-- ITXAC3 (41 R101). -/
def execItxac3 (a b : Word) (s : State) : Host.Outcome State Fault Refusal :=
  runCommand (itxac3Plan (zext a) (zext b) s.platform.bps) s

end Sys2Proof.Machine
end

