-- ==== Sys2Proof/Machine/Dispatch.lean ====
section
/-! DEFINITION. One arm per command, each one call of its meaning. -/

namespace Sys2Proof.Machine

def exec (i : Instr) (s : State) : Host.Outcome State Fault Refusal :=
  match i with
  | .itx two a b => Sys2Proof.Machine.execItx two a b s
  | .iwht a b => Sys2Proof.Machine.execIwht a b s
  | .itxdc a b => Sys2Proof.Machine.execItxdc a b s
  | .itxac3 a b => Sys2Proof.Machine.execItxac3 a b s
  | .fov a stride elim ilim hevt => Sys2Proof.Machine.execFov a stride elim ilim hevt s
  | .foh a stride elim ilim hevt => Sys2Proof.Machine.execFoh a stride elim ilim hevt s
  | .fiv a stride elim ilim hevt => Sys2Proof.Machine.execFiv a stride elim ilim hevt s
  | .fih a stride elim ilim hevt => Sys2Proof.Machine.execFih a stride elim ilim hevt s

end Sys2Proof.Machine
end

