-- ==== Sys2Proof/Machine/Events.lean ====
section
/-! DEFINITION. What one step does: an idle PRE takes the host's next input; a PRE with a command in its
latch runs it, unless another agent's access or a reset comes first (30_encoding R45, 20_memory R41,
70_reset R156, R157, R171). -/

namespace Sys2Proof.Machine

/-- What a command's fields fix before any access, command by command (20_memory R34). -/
def planOf (i : Instr) (pf : Platform) : Plan :=
  match i with
  | .itx two a b => itxPlan two (zext a) (zext b) pf.bps
  | .iwht a b => iwhtPlan (zext a) (zext b)
  | .itxdc a b => itxdcPlan (zext a) (zext b) pf.bps
  | .itxac3 a b => itxac3Plan (zext a) (zext b) pf.bps
  | .fov a s e i h => fovPlan (zext a) (zext s) (limitsOf e i h)
  | .foh a s e i h => fohPlan (zext a) (zext s) (limitsOf e i h)
  | .fiv a s e i h => fivPlan (zext a) (zext s) (limitsOf e i h)
  | .fih a s e i h => fihPlan (zext a) (zext s) (limitsOf e i h)

/-- The PRE is idle (10_state R24): it takes the next input. With no input left it stays as it is
(log 16). -/
def idleStep (s : State) : Host.Outcome State Fault Refusal :=
  match s.inbox with
  | [] => .next s
  | .deliver d :: rest => .next { s with latch := some d, inbox := rest }
  | .access x :: rest => .next (hostAccess x { s with inbox := rest })
  | .await :: rest => .next { s with inbox := rest }
  | .reset :: rest => .next { s with inbox := rest }

/-- A command is in the latch: the input before the next wait lands while it executes; any other input
waits until it is over (30_encoding R45, 70_reset R161). -/
def busyStep (i : Instr) (s : State) : Host.Outcome State Fault Refusal :=
  match s.inbox with
  | .access x :: rest => contend (planOf i s.platform) x { s with inbox := rest }
  | .reset :: rest => abandon (planOf i s.platform) { s with inbox := rest }
  | _ => exec i s

/-- One step of the PRE and its host. An illegal descriptor faults before anything else is checked
(60_exceptions R142, R147). -/
def engineStep (s : State) : Host.Outcome State Fault Refusal :=
  match s.latch with
  | none => idleStep s
  | some d =>
    match decode d with
    | .error _ => .fault (.illegalCommand (d.word 0))
    | .ok i => busyStep i s

end Sys2Proof.Machine
end

