-- ==== Sys2Proof/Machine/Step.lean ====
section
/-! DEFINITION. One step, and how a given descriptor is placed where the next step runs it. -/

namespace Sys2Proof.Machine

/-- One step of the machine. -/
def step (s : State) : Host.Outcome State Fault Refusal := engineStep s

/-- The state with the descriptor whose lowest `nbits` bits are `w`, the others zero, in the latch, and
the host waiting for its completion, so that the next step runs exactly that descriptor. It stands for
the host's delivery of it (30_encoding R45, log 1). -/
def State.withFetchWord (s : State) (nbits w : Nat) : State :=
  { s with latch := some (BitVec.ofNat 192 (w % 2 ^ nbits)), inbox := .await :: s.inbox }

end Sys2Proof.Machine
end

