-- ==== Sys2Proof/Machine/Assembler.lean ====
section
/-! DEFINITION. The textual form of a command and the assembler (30_encoding R55, R56). A text is a list of
characters. Operands stand in the order of R55's table, each at most once (DESIGN CHOICE, log 21). -/

namespace Sys2Proof.Machine

/-- A blank between words. -/
def isBlank (c : Char) : Bool := c == ' ' || c == '\t' || c == '\r' || c == '\n'

/-- The text without blanks at either end. -/
def trimText (t : List Char) : List Char := ((t.dropWhile isBlank).reverse.dropWhile isBlank).reverse

/-- `;` starts a comment (30 R55). -/
def dropComment (t : List Char) : List Char := t.takeWhile (fun c => c != ';')

/-- The parts of a text between occurrences of a separator. -/
def splitText (sep : Char) : List Char → List (List Char)
  | [] => [[]]
  | c :: t =>
    match splitText sep t with
    | [] => [[c]]
    | p :: ps => if c == sep then [] :: p :: ps else (c :: p) :: ps

/-- The value of a digit in the given base. -/
def digitValue (base : Nat) (c : Char) : Option Nat :=
  let n := c.toNat
  let v := if 48 ≤ n ∧ n ≤ 57 then n - 48
    else if 65 ≤ n ∧ n ≤ 70 then n - 55
    else if 97 ≤ n ∧ n ≤ 102 then n - 87 else base
  if v < base then some v else none

/-- The number a run of digits writes, continuing from `acc`. -/
def digitsValue (base : Nat) : Nat → List Char → Option Nat
  | acc, [] => some acc
  | acc, c :: t => (digitValue base c).bind (fun v => digitsValue base (acc * base + v) t)

/-- A number in C syntax, decimal or `0x` hex (30 R55). -/
def parseNumber (t : List Char) : Option Nat :=
  match t with
  | [] => none
  | ['0', 'x'] => none
  | ['0', 'X'] => none
  | '0' :: 'x' :: ds => digitsValue 16 0 ds
  | '0' :: 'X' :: ds => digitsValue 16 0 ds
  | ds => digitsValue 10 0 ds

/-- A number that fits a field of `n` bits. -/
def fitField (n v : Nat) : Option (BitVec n) := if v < 2 ^ n then some (BitVec.ofNat n v) else none

/-- A named operand `name=number` of a field of `n` bits. -/
def parseOperand (n : Nat) (name : List Char) (t : List Char) : Option (BitVec n) :=
  match splitText '=' t with
  | [l, r] => if trimText l = name then (parseNumber (trimText r)).bind (fitField n) else none
  | _ => none

def nameCoef : List Char := ['c', 'o', 'e', 'f']
def namePix : List Char := ['p', 'i', 'x']
def nameOut : List Char := ['o', 'u', 't']
def nameTwo : List Char := ['t', 'w', 'o']
def nameStride : List Char := ['s', 't', 'r', 'i', 'd', 'e']
def nameElim : List Char := ['e', 'l', 'i', 'm']
def nameIlim : List Char := ['i', 'l', 'i', 'm']
def nameHevt : List Char := ['h', 'e', 'v', 't']

/-- `coef=<A>, <second>=<B>`, the operands of a transform. -/
def parseTransform (second : List Char) (build : Word → Word → Instr) : List (List Char) → Option Instr
  | [ta, tb] =>
    (parseOperand 32 nameCoef ta).bind (fun a => (parseOperand 32 second tb).map (fun b => build a b))
  | _ => none

/-- ITX: `two` may follow (30 R55). -/
def parseItx : List (List Char) → Option Instr
  | [ta, tb, tt] => if trimText tt = nameTwo then parseTransform namePix (.itx true) [ta, tb] else none
  | ts => parseTransform namePix (.itx false) ts

/-- `pix=<A>, stride=, elim=, ilim=, hevt=`, the operands of a filter. -/
def parseFilter (build : Word → Word → Half → Half → Half → Instr) : List (List Char) → Option Instr
  | [ta, ts, te, ti, th] =>
    (parseOperand 32 namePix ta).bind (fun a =>
    (parseOperand 32 nameStride ts).bind (fun s =>
    (parseOperand 16 nameElim te).bind (fun e =>
    (parseOperand 16 nameIlim ti).bind (fun i =>
    (parseOperand 16 nameHevt th).map (fun h => build a s e i h)))))
  | _ => none

/-- The command a mnemonic and its operand texts name, pseudo-instructions among them (30 R55, R56). -/
def parseNamed (m : List Char) (ops : List (List Char)) : Option Instr :=
  if m = ['I', 'T', 'X'] then parseItx ops
  else if m = ['I', 'T', 'X', '1'] then parseTransform namePix (.itx false) ops
  else if m = ['I', 'T', 'X', '2'] then parseTransform namePix (.itx true) ops
  else if m = ['I', 'W', 'H', 'T'] then parseTransform nameOut .iwht ops
  else if m = ['I', 'T', 'X', 'D', 'C'] then parseTransform namePix .itxdc ops
  else if m = ['I', 'T', 'X', 'A', 'C', '3'] then parseTransform namePix .itxac3 ops
  else if m = ['F', 'O', 'V'] then parseFilter .fov ops
  else if m = ['F', 'O', 'H'] then parseFilter .foh ops
  else if m = ['F', 'I', 'V'] then parseFilter .fiv ops
  else if m = ['F', 'I', 'H'] then parseFilter .fih ops
  else none

/-- The command a line of text names (30 R55). -/
def parseLine (t : List Char) : Option Instr :=
  let line := trimText (dropComment t)
  parseNamed (line.takeWhile (fun c => !isBlank c)) (splitText ',' (line.dropWhile (fun c => !isBlank c)))

/-- The assembler: the descriptor of a line, unused and reserved fields zero (30 R55). -/
def assemble (t : List Char) : Option Descriptor := (parseLine t).map encode

end Sys2Proof.Machine
end

