-- ==== Sys2Proof/Safety.lean ====
section
/-! DEFINITION. What counts as a safe run, in the terms the statements use: the preconditions under which the
spec gives a command a result (70_reset R159), what a command may change, and what one filtered edge and
one finished run are. -/

namespace Sys2Proof.Safety

open Sys2Proof.Machine

/-- P2 and P4: every address the command needs lies in [0, 2^32) and in valid memory. -/
abbrev Reachable (p : Plan) (pf : Platform) : Prop :=
  ∀ a ∈ planExtent p, 0 ≤ a ∧ a < 2 ^ 32 ∧ admits pf a = true

/-- P3: every coefficient address is even. -/
abbrev Aligned (p : Plan) : Prop := ∀ a ∈ p.coefBases, a % 2 = 0

/-- P5 and P7: sample positions are apart, and no coefficient read is written. -/
abbrev Separate (p : Plan) : Prop := p.spaced = true ∧ ∀ a ∈ p.coefReads, a ∉ p.writes

/-- P8: the footprints are ordinary memory. -/
abbrev Ordinary (p : Plan) (pf : Platform) : Prop := ∀ a ∈ planFootprint p, isDevice pf a = false

/-- The launch parameter BPS is at least 8 where the command uses it (60_exceptions R141). -/
abbrev GoodParameter (p : Plan) (pf : Platform) : Prop := p.usesBps = true → 8 ≤ pf.bps

/-- The spec gives the command a result: preconditions P2 to P5, P7 and P8 of 70_reset R159 hold. P1 holds
of every `Instr`, P6 cannot be broken, P9 is the events' (20_memory R41), and P10 asks nothing of a memory
that always holds a value (log 2). -/
abbrev Defined (i : Instr) (s : State) : Prop :=
  GoodParameter (planOf i s.platform) s.platform ∧ Aligned (planOf i s.platform) ∧
  Reachable (planOf i s.platform) s.platform ∧ Separate (planOf i s.platform) ∧
  Ordinary (planOf i s.platform) s.platform

/-- What a completed command leaves alone: everything but the bytes it stores to, the latch, which is
discarded, and the count of completions, which rises by one (10_state R13, R17, R19; 60_exceptions R145). -/
def OnlyStoresTo (s t : State) (stored : List Int) : Prop :=
  t.latch = none ∧ t.completions = s.completions + 1 ∧ t.inbox = s.inbox ∧ t.platform = s.platform ∧
  t.draws = s.draws ∧ ∀ a : Nat, (a : Int) ∉ stored → t.mem.read a = s.mem.read a

/-- The access's writes have landed between the memories `m` and `m'`: an address it writes holds the last
byte it writes there, and every other byte is as in `m` (70_reset R171, 20_memory R25). -/
def AccessLands (x : Access) (m m' : Memory) : Prop :=
  (∀ (before after : List (Word × Byte)) (w : Word × Byte), x.writes = before ++ w :: after →
    (∀ v ∈ after, v.1 ≠ w.1) → m'.read w.1.toNat = w.2) ∧
  ∀ b : Nat, (∀ w ∈ x.writes, w.1.toNat ≠ b) → m'.read b = m.read b

/-- One edge has been filtered between the memories `m` and `m'`: every tap the kernel writes, in every
lane, holds what the kernel gives for the lane as `m` has it, and every other byte is as in `m`
(42_deblock R123). -/
def EdgeFiltered (m m' : Memory) (e0 step lane : Int) (k : EdgeKernel) (lim : Limits) : Prop :=
  (∀ l, l < 16 → ∀ t ∈ kernelTaps k,
    pix m' (tapAddr e0 step lane l t) = laneTap (applyKernel k lim (readLane m e0 step lane l)) t) ∧
  ∀ a : Nat, (a : Int) ∉ edgeAddrs e0 step lane (kernelTaps k) → m'.read a = m.read a

/-- `T` is the intermediate array and `O` the second-pass output of the full transform of the coefficients
`c` (41_inverse_transform R85, R87). -/
def TwoPasses (c : Nat → Int) (T O : Nat → Nat → Int) : Prop :=
  (∀ u, u < 4 → bf (c u) (c (4 + u)) (c (8 + u)) (c (12 + u)) = ⟨T 0 u, T 1 u, T 2 u, T 3 u⟩) ∧
  ∀ y, y < 4 → bf (T y 0) (T y 1) (T y 2) (T y 3) = ⟨O y 0, O y 1, O y 2, O y 3⟩

/-- The residual of a block with coefficients 0, 1 and 4 alone, in closed form
(41_inverse_transform R102, 90_conflicts C13). -/
def ac3Residual (c0 c1 c4 : Int) (y x : Nat) : Int :=
  let base := if y = 0 then mul1 c4 else if y = 1 then mul2 c4 else if y = 2 then -mul2 c4 else -mul1 c4
  let col := if x = 0 then mul1 c1 else if x = 1 then mul2 c1 else if x = 2 then -mul2 c1 else -mul1 c1
  sra (c0 + 4 + base + col) 3

/-- The matrix `H` of the Walsh-Hadamard pass (40_arithmetic R73). -/
def hadamard (y v : Nat) : Int :=
  if v = 0 then 1
  else if v = 1 then (if y = 0 ∨ y = 1 then 1 else -1)
  else if v = 2 then (if y = 0 ∨ y = 3 then 1 else -1)
  else (if y = 0 ∨ y = 2 then 1 else -1)

/-- All eight samples of a lane lie in [0, 255]. -/
def InSampleRange (n : Lane) : Prop :=
  (0 ≤ n.p3 ∧ n.p3 ≤ 255) ∧ (0 ≤ n.p2 ∧ n.p2 ≤ 255) ∧ (0 ≤ n.p1 ∧ n.p1 ≤ 255) ∧ (0 ≤ n.p0 ∧ n.p0 ≤ 255) ∧
  (0 ≤ n.q0 ∧ n.q0 ≤ 255) ∧ (0 ≤ n.q1 ∧ n.q1 ≤ 255) ∧ (0 ≤ n.q2 ∧ n.q2 ≤ 255) ∧ (0 ≤ n.q3 ∧ n.q3 ≤ 255)

/-- The edges a filter command works on, in order: the addresses of tap 0 of lane 0, the distances of taps
and of lanes, and the limits (20_memory R33). -/
def edgesOf : Instr → Option (List Int × Int × Int × Limits)
  | .itx _ _ _ => none
  | .iwht _ _ => none
  | .itxdc _ _ => none
  | .itxac3 _ _ => none
  | .fov a s e i h => some ([zext a], zext s, 1, ⟨zext e, zext i, zext h⟩)
  | .foh a s e i h => some ([zext a], 1, zext s, ⟨zext e, zext i, zext h⟩)
  | .fiv a s e i h =>
    some ([zext a + 4 * zext s, zext a + 8 * zext s, zext a + 12 * zext s], zext s, 1, ⟨zext e, zext i, zext h⟩)
  | .fih a s e i h => some ([zext a + 4, zext a + 8, zext a + 12], 1, zext s, ⟨zext e, zext i, zext h⟩)

/-- The run is over: the PRE is idle and the host has nothing left (70_reset R172). -/
def Finished (s : State) : Prop := s.latch = none ∧ s.inbox = []

/-- `n` steps from `s` meet no fault and no refusal and end the run (70_reset R172). -/
def SafeRun (n : Nat) (s : State) : Prop := ∃ t, Host.Core.run Sys2Proof.core n s = .next t ∧ Finished t

end Sys2Proof.Safety
end

