-- ==== Sys2Proof/Certificates/Slice0/Obligations.lean ====
section
/-! DEFINITION. The statements for the provers. Each docstring names the rules of spec/ it formalises. A
completed command is `exec i s = .next t` for every state that meets the command's preconditions. -/

open Sys2Proof Sys2Proof.Machine Sys2Proof.Safety

/-! ## Encoding -/

/-- Decoding an encoded command gives it back, for every command and every value of its operands
(30_encoding R46, R49, R51). -/
def Obligations.DecodeEncodeAgree : Prop := ∀ i : Instr, decode (encode i) = .ok i

/-- A descriptor decodes to a command exactly when the bits the command's row reads are those of its
encoding: no other bit has an effect, and none of those may differ (30_encoding R49). -/
def Obligations.DecodeReadsExactlyTheUsedFields : Prop :=
  ∀ (d : Descriptor) (i : Instr), decode d = .ok i ↔ d &&& usedMask i = encode i

/-- The opcode map's rows are mutually exclusive, the one row that matches gives the command, and no
matching row means invalid (30_encoding R51). -/
def Obligations.DecodeSelectsTheOneMatchingRow : Prop :=
  (opcodeTable.map (fun r => (r.mnemonic, r.matchW0, r.maskW0)) =
    [("ITX", 0x00000001, 0xFFFFFEFF), ("IWHT", 0x00000002, 0xFFFFFFFF), ("ITXDC", 0x00000003, 0xFFFFFFFF),
     ("ITXAC3", 0x00000004, 0xFFFFFFFF), ("FOV", 0x00000008, 0xFFFFFFFF), ("FOH", 0x00000009, 0xFFFFFFFF),
     ("FIV", 0x0000000A, 0xFFFFFFFF), ("FIH", 0x0000000B, 0xFFFFFFFF)]) ∧
  (∀ d : Descriptor, ∀ r ∈ opcodeTable, r.selects d = true → decode d = .ok (r.operands d)) ∧
  (∀ d : Descriptor, ∀ r ∈ opcodeTable, ∀ r' ∈ opcodeTable, r.selects d = true → r'.selects d = true → r = r') ∧
  ∀ d : Descriptor, (∀ r ∈ opcodeTable, r.selects d = false) → ∃ e, decode d = .error e

/-- The illegal descriptors are those with an operation code outside the eight, a reserved bit set, or TWO
without ITX (30_encoding R52, first sentence). -/
def Obligations.IllegalDescriptorsAreThese : Prop :=
  ∀ d : Descriptor, (∃ e, decode d = .error e) ↔
    (d.op ∉ ([0x01, 0x02, 0x03, 0x04, 0x08, 0x09, 0x0A, 0x0B] : List Byte) ∨ d.rsv0 ≠ 0 ∨
      (d.two = true ∧ d.op ≠ 0x01))

/-- The fields of a descriptor are the bits of its six words that R46 names (30_encoding R46). -/
def Obligations.DescriptorFieldsOfWords : Prop :=
  ∀ w0 w1 w2 w3 w4 w5 : Word,
    (Descriptor.ofWords w0 w1 w2 w3 w4 w5).op = w0.extractLsb' 0 8 ∧
    (Descriptor.ofWords w0 w1 w2 w3 w4 w5).two = w0.getLsbD 8 ∧
    (Descriptor.ofWords w0 w1 w2 w3 w4 w5).rsv0 = w0.extractLsb' 9 23 ∧
    (Descriptor.ofWords w0 w1 w2 w3 w4 w5).a = w1 ∧
    (Descriptor.ofWords w0 w1 w2 w3 w4 w5).b = w2 ∧
    (Descriptor.ofWords w0 w1 w2 w3 w4 w5).stride = w3 ∧
    (Descriptor.ofWords w0 w1 w2 w3 w4 w5).elim = w4.extractLsb' 0 16 ∧
    (Descriptor.ofWords w0 w1 w2 w3 w4 w5).ilim = w4.extractLsb' 16 16 ∧
    (Descriptor.ofWords w0 w1 w2 w3 w4 w5).hevt = w5.extractLsb' 0 16 ∧
    (Descriptor.ofWords w0 w1 w2 w3 w4 w5).rsv5 = w5.extractLsb' 16 16

/-- The worked encodings of R57, two illegal ones among them, read by the decoder and written by the
assembler (30_encoding R55, R57). -/
def Obligations.WorkedEncodings : Prop :=
  (decode (Descriptor.ofWords 0x00000003 0x00001000 0x00002000 0 0 0)).toOption =
    some (.itxdc 0x1000 0x2000) ∧
  (decode (Descriptor.ofWords 0x00000101 0x00003000 0x00002000 0 0 0)).toOption =
    some (.itx true 0x3000 0x2000) ∧
  (decode (Descriptor.ofWords 0x00000002 0x00001000 0x00003000 0 0 0)).toOption =
    some (.iwht 0x1000 0x3000) ∧
  (decode (Descriptor.ofWords 0x00000008 0x00004080 0 0x00000020 0x00020028 0x00000002)).toOption =
    some (.fov 0x4080 32 40 2 2) ∧
  (decode (Descriptor.ofWords 0x0000000B 0x00005000 0 0x00000010 0x00010028 0x00000002)).toOption =
    some (.fih 0x5000 16 40 1 2) ∧
  (decode (Descriptor.ofWords 0x00000102 0x00001000 0x00003000 0 0 0)).toOption = none ∧
  (decode (Descriptor.ofWords 0 0 0 0 0 0)).toOption = none ∧
  assemble "ITXDC coef=0x1000, pix=0x2000".toList =
    some (Descriptor.ofWords 0x00000003 0x00001000 0x00002000 0 0 0) ∧
  assemble "ITX coef=0x3000, pix=0x2000, two".toList =
    some (Descriptor.ofWords 0x00000101 0x00003000 0x00002000 0 0 0) ∧
  assemble "IWHT coef=0x1000, out=0x3000".toList =
    some (Descriptor.ofWords 0x00000002 0x00001000 0x00003000 0 0 0) ∧
  assemble "FOV pix=0x4080, stride=32, elim=40, ilim=2, hevt=2".toList =
    some (Descriptor.ofWords 0x00000008 0x00004080 0 0x00000020 0x00020028 0x00000002) ∧
  assemble "FIH pix=0x5000, stride=16, elim=40, ilim=1, hevt=2".toList =
    some (Descriptor.ofWords 0x0000000B 0x00005000 0 0x00000010 0x00010028 0x00000002)

/-! ## Arithmetic primitives -/

/-- `sra` is the floor of the quotient by `2^n`; its corner cases (40_arithmetic R59). -/
def Obligations.ShiftRightFloors : Prop :=
  (∀ (v : Int) (n : Nat), 2 ^ n * sra v n ≤ v ∧ v < 2 ^ n * (sra v n + 1)) ∧
  (∀ n : Nat, sra (-1) n = -1) ∧
  sra (-33) 3 = -5 ∧ sra 7 3 = 0 ∧ sra (-8) 3 = -1 ∧ sra (-9) 3 = -2

/-- The two clamps, the biased domain and the saturating operations (40_arithmetic R60, R61, R63). -/
def Obligations.ClampsSaturate : Prop :=
  (∀ v : Int, clamp8u v = min (max v 0) 255 ∧ clamp8s v = min (max v (-128)) 127) ∧
  (∀ a b : Int, sadd8 a b = clamp8s (a + b) ∧ ssub8 a b = clamp8s (a - b)) ∧
  (∀ a : Int, -1 ≤ a → a ≤ 127 → ssub8 a (-128) = 127) ∧
  clamp8u (-5) = 0 ∧ clamp8u 104 = 104 ∧ clamp8u 4196 = 255 ∧
  clamp8s 131 = 127 ∧ clamp8s (-190) = -128 ∧ clamp8s 30 = 30 ∧
  sadd8 100 100 = 127 ∧ ssub8 (-100) 100 = -128 ∧ sadd8 (-118) 15 = -103

/-- `trunc16` is the two's complement reading of the low 16 bits: congruent, in range, and the identity on
the range (40_arithmetic R65). -/
def Obligations.TruncationWraps : Prop :=
  (∀ v : Int, (trunc16 v - v) % 65536 = 0 ∧ -32768 ≤ trunc16 v ∧ trunc16 v ≤ 32767) ∧
  (∀ v : Int, -32768 ≤ v → v ≤ 32767 → trunc16 v = v) ∧
  trunc16 65534 = -2 ∧ trunc16 (-65536) = 0

/-- The fixed-point multipliers and their examples (40_arithmetic R68, R69). -/
def Obligations.MultipliersFollowTheConstants : Prop :=
  (∀ x : Int, mul1 x = x + sra (x * 20091) 16 ∧ mul2 x = sra (x * 35468) 16) ∧
  [3, -3, 100, -100, 1, -1, 4, -4, 32767, -32768, 0].map mul1 =
    [3, -4, 130, -131, 1, -2, 5, -6, 42812, -42814, 0] ∧
  [3, -3, 100, -100, 1, -1, 4, -4, 32767, -32768, 0].map mul2 =
    [1, -2, 54, -55, 0, -1, 2, -3, 17733, -17734, 0]

/-- Neither multiplier is odd-symmetric where its product has a fraction, and the second is additive but
for a carry (40_arithmetic R70). R70's parenthesis says that the fraction is not zero for every `x` that is
no multiple of 65536; that holds of K1, and of K2 only off the multiples of 16384, so the exact condition
stands here. -/
def Obligations.MultipliersAreNotOdd : Prop :=
  (∀ x : Int, (mul1 (-x) = -mul1 x - 1 ↔ x % 65536 ≠ 0) ∧ (mul2 (-x) = -mul2 x - 1 ↔ x % 16384 ≠ 0)) ∧
  (∀ a b : Int, mul2 (a + b) = mul2 a + mul2 b ∨ mul2 (a + b) = mul2 a + mul2 b + 1) ∧
  ∃ a b : Int, mul2 (a + b) ≠ mul2 a + mul2 b

/-- The butterfly of the full transform and its example (40_arithmetic R71). -/
def Obligations.FullButterflyAlgebra : Prop :=
  (∀ i0 i1 i2 i3 a1 b1 c1 d1 : Int, a1 = i0 + i2 → b1 = i0 - i2 → c1 = mul2 i1 - mul1 i3 →
    d1 = mul1 i1 + mul2 i3 → bf i0 i1 i2 i3 = ⟨a1 + d1, b1 + c1, b1 - c1, a1 - d1⟩) ∧
  bf 0 3 0 0 = ⟨3, 1, -1, -3⟩ ∧ bf 64 33 (-12) 5 = ⟨97, 87, 65, 7⟩

/-- The Walsh-Hadamard butterfly is the matrix `H`, and its example (40_arithmetic R72, R73). -/
def Obligations.WalshButterflyIsTheMatrix : Prop :=
  (∀ i0 i1 i2 i3 : Int, bfw i0 i1 i2 i3 =
    ⟨i0 + i1 + i2 + i3, i0 + i1 - i2 - i3, i0 - i1 - i2 + i3, i0 - i1 + i2 - i3⟩) ∧
  (∀ (i : Nat → Int) (k : Nat), k < 4 →
    quadAt (bfw (i 0) (i 1) (i 2) (i 3)) k = ∑ j ∈ Finset.range 4, hadamard k j * i j) ∧
  bfw 80 24 0 (-8) = ⟨96, 112, 48, 64⟩

/-- The two rounding shifts, the merge and their examples (40_arithmetic R74, R75). -/
def Obligations.RoundingAndMerge : Prop :=
  (∀ v : Int, rndT v = sra (v + 4) 3 ∧ rndW v = sra (v + 3) 3) ∧
  (∀ s r : Int, mergeSample s r = clamp8u (s + r)) ∧
  [32, -37, 3, 4, -4, -5].map rndT = [4, -5, 0, 1, 0, -1] ∧
  [1, 5, -3, -4, 100, -100].map rndW = [0, 1, 0, -1, 12, -13] ∧
  mergeSample 100 4 = 104 ∧ mergeSample 3 (-5) = 0 ∧ mergeSample 250 9 = 255

/-- Three saturating additions of the saturated difference equal one clamp of the exact sum
(40_arithmetic R78). -/
def Obligations.StepwiseSaturationIsOneClamp : Prop :=
  ∀ s P0 Q0 : Int, -128 ≤ s → s ≤ 127 → -128 ≤ P0 → P0 ≤ 127 → -128 ≤ Q0 → Q0 ≤ 127 →
    sadd8 (sadd8 (sadd8 s (clamp8s (Q0 - P0))) (clamp8s (Q0 - P0))) (clamp8s (Q0 - P0)) =
      clamp8s (s + 3 * (Q0 - P0))

/-- The two corrections of the 2-tap update lie in [-16, 15], with the extremes of R79, and differ exactly
where `f mod 8 = 4` and `f` is not 124 (40_arithmetic R79; 42_deblock R115, 90_conflicts C15). -/
def Obligations.TwoTapCorrections : Prop :=
  (∀ f : Int, -128 ≤ f → f ≤ 127 →
    -16 ≤ tapF1 f ∧ tapF1 f ≤ 15 ∧ -16 ≤ tapF2 f ∧ tapF2 f ≤ 15 ∧
    (tapF1 f = tapF2 f ∨ tapF1 f = tapF2 f + 1) ∧ (tapF1 f = tapF2 f + 1 ↔ f % 8 = 4 ∧ f ≠ 124)) ∧
  tapF1 127 = 15 ∧ tapF1 (-128) = -16 ∧ tapF2 (-128) = -16 ∧ tapF1 0 = 0 ∧ tapF2 0 = 0

/-- For every filter value the clamp in the 6-tap steps changes nothing and the steps are at most 9, 18
and 27 in magnitude (40_arithmetic R81; 42_deblock R120). -/
def Obligations.SixTapStepsNeedNoClamp : Prop :=
  ∀ f : Int, -128 ≤ f → f ≤ 127 →
    step7 (9 * f + 63) = sra (9 * f + 63) 7 ∧ step7 (18 * f + 63) = sra (18 * f + 63) 7 ∧
    step7 (27 * f + 63) = sra (27 * f + 63) 7 ∧
    |step7 (9 * f + 63)| ≤ 9 ∧ |step7 (18 * f + 63)| ≤ 18 ∧ |step7 (27 * f + 63)| ≤ 27

/-- Bounds of the exact intermediate values for coefficients of 16 bits (40_arithmetic R76). -/
def Obligations.TransformWidthsSuffice : Prop :=
  ∀ c : Nat → Int, (∀ i, i < 16 → -32768 ≤ c i ∧ c i ≤ 32767) →
    ∀ x y, x < 4 → y < 4 →
      |interT c y x| ≤ 126084 ∧ |quadAt (passAcross c y) x + 4| < 2 ^ 19 ∧ |blockResidual c y x| ≤ 60643 ∧
      |whtO c y x + 3| ≤ 524291 ∧ |whtG c (4 * y + x)| ≤ 65536

/-! ## Bytes and coefficients -/

/-- A coefficient has its low byte at its address and its high byte at the next one, both when it is read,
as two's complement, and when it is stored; nothing else is stored (20_memory R26; 00_scope R10). -/
def Obligations.CoefficientsAreLittleEndian : Prop :=
  (∀ (m : Memory) (a : Int) (lo hi : Nat), lo = (m.read a.toNat).toNat → hi = (m.read (a + 1).toNat).toNat →
    memRead m a 2 = lo + 256 * hi ∧
    coef m a = if lo + 256 * hi < 32768 then (lo + 256 * hi : Int) else (lo + 256 * hi : Int) - 65536) ∧
  ∀ (m : Memory) (a v : Int), 0 ≤ a →
    (((m.writeAll (memWriteStores a 2 v)).read a.toNat).toNat : Int) = v % 256 ∧
    (((m.writeAll (memWriteStores a 2 v)).read (a + 1).toNat).toNat : Int) = v / 256 % 256 ∧
    (∀ b : Nat, (b : Int) ≠ a → (b : Int) ≠ a + 1 → (m.writeAll (memWriteStores a 2 v)).read b = m.read b) ∧
    coef (m.writeAll (memWriteStores a 2 v)) a = trunc16 v

/-! ## The transforms -/

/-- ITX on one block or two: each sample of the region becomes the old sample plus the rounded output of
the two passes over the block's coefficients, clamped; nothing else changes (41_inverse_transform R84,
R85, R88, R89, R90). -/
def Obligations.ItxReconstructsItsBlocks : Prop :=
  ∀ (two : Bool) (a b : Word) (s : State), Defined (.itx two a b) s →
    ∃ t, exec (.itx two a b) s = .next t ∧
      (encode (.itx two a b)).word 0 = (if two then 0x101 else 0x001) ∧
      (∀ (c : Nat → Int) (T O : Nat → Nat → Int), (∀ i, i < 16 → c i = coef s.mem (zext a + 2 * i)) →
        TwoPasses c T O → ∀ x y, x < 4 → y < 4 →
          pix t.mem (pixAddr s.platform.bps (zext b) x y) =
            clamp8u (pix s.mem (pixAddr s.platform.bps (zext b) x y) + sra (O y x + 4) 3)) ∧
      (two = true →
        ∀ (c : Nat → Int) (T O : Nat → Nat → Int), (∀ i, i < 16 → c i = coef s.mem (zext a + 32 + 2 * i)) →
          TwoPasses c T O → ∀ x y, x < 4 → y < 4 →
            pix t.mem (pixAddr s.platform.bps (zext b + 4) x y) =
              clamp8u (pix s.mem (pixAddr s.platform.bps (zext b + 4) x y) + sra (O y x + 4) 3)) ∧
      OnlyStoresTo s t (if two then blkAddrs s.platform.bps (zext b) ++ blkAddrs s.platform.bps (zext b + 4)
        else blkAddrs s.platform.bps (zext b))

/-- IWHT: entry `16*i` of the output array becomes the wrapped, rounded Walsh-Hadamard output, its low byte at
the lower address; the other entries, the input and everything else stay
(41_inverse_transform R94, R95, R96, R98; 20_memory R26). -/
def Obligations.IwhtScattersTheOutputs : Prop :=
  ∀ (a b : Word) (s : State), Defined (.iwht a b) s →
    ∃ t, exec (.iwht a b) s = .next t ∧ (encode (.iwht a b)).word 0 = 0x002 ∧
      (∀ (x y : Nat) (g : Int), x < 4 → y < 4 →
        g = sra ((∑ v ∈ Finset.range 4, ∑ u ∈ Finset.range 4,
          hadamard y v * hadamard x u * coef s.mem (zext a + 2 * (4 * v + u))) + 3) 3 →
        coef t.mem (zext b + 32 * (4 * y + x)) = trunc16 g ∧
        ((t.mem.read (zext b + 32 * (4 * y + x)).toNat).toNat : Int) = g % 256 ∧
        ((t.mem.read (zext b + 32 * (4 * y + x) + 1).toNat).toNat : Int) = g / 256 % 256) ∧
      (∀ i : Nat, i < 16 → coef t.mem (zext a + 2 * i) = coef s.mem (zext a + 2 * i)) ∧
      (∀ j : Nat, j < 256 → j % 16 ≠ 0 → coef t.mem (zext b + 2 * j) = coef s.mem (zext b + 2 * j)) ∧
      OnlyStoresTo s t ((List.range 16).flatMap (fun i => span (outAddr (zext b) i) 2))

/-- ITXDC: the rounded coefficient 0 is added to each of the 16 samples, clamped; nothing else changes, and
no other coefficient matters (41_inverse_transform R99). -/
def Obligations.ItxdcAddsTheDcTerm : Prop :=
  ∀ (a b : Word) (s : State), Defined (.itxdc a b) s →
    ∃ t, exec (.itxdc a b) s = .next t ∧ (encode (.itxdc a b)).word 0 = 0x003 ∧
      (∀ x y, x < 4 → y < 4 →
        pix t.mem (pixAddr s.platform.bps (zext b) x y) =
          clamp8u (pix s.mem (pixAddr s.platform.bps (zext b) x y) + sra (coef s.mem (zext a) + 4) 3)) ∧
      OnlyStoresTo s t (blkAddrs s.platform.bps (zext b))

/-- ITXAC3: the residual is the closed form of coefficients 0, 1 and 4; nothing else changes
(41_inverse_transform R101, R102). -/
def Obligations.Itxac3FollowsTheClosedForm : Prop :=
  ∀ (a b : Word) (s : State), Defined (.itxac3 a b) s →
    ∃ t, exec (.itxac3 a b) s = .next t ∧ (encode (.itxac3 a b)).word 0 = 0x004 ∧
      (∀ x y, x < 4 → y < 4 →
        pix t.mem (pixAddr s.platform.bps (zext b) x y) =
          clamp8u (pix s.mem (pixAddr s.platform.bps (zext b) x y) +
            ac3Residual (coef s.mem (zext a)) (coef s.mem (zext a + 2)) (coef s.mem (zext a + 8)) y x)) ∧
      OnlyStoresTo s t (blkAddrs s.platform.bps (zext b))

/-- The order of the passes matters: the smallest discriminating block gives no residual in the spec's
order, and 1 at two places where the first pass runs along the rows instead (41_inverse_transform R91). -/
def Obligations.PassOrderIsObservable : Prop :=
  ∀ (c : Nat → Int) (rowFirst : Nat → Nat → Int),
    (∀ i, c i = if i = 6 then 3 else 0) →
    (∀ y x, rowFirst y x = rndT (quadAt (bf (quadAt (bf (c 0) (c 1) (c 2) (c 3)) x)
      (quadAt (bf (c 4) (c 5) (c 6) (c 7)) x) (quadAt (bf (c 8) (c 9) (c 10) (c 11)) x)
      (quadAt (bf (c 12) (c 13) (c 14) (c 15)) x)) y)) →
    (∀ x y, x < 4 → y < 4 → blockResidual c y x = 0) ∧ rowFirst 3 1 = 1 ∧ rowFirst 3 2 = 1

/-- Zero and DC-only blocks: the residual is the rounded coefficient 0 everywhere, so zero and DC values
in [-4, 3] leave every sample as it is (41_inverse_transform R93). -/
def Obligations.DcOnlyResidual : Prop :=
  ∀ c : Nat → Int, (∀ i, 1 ≤ i → i < 16 → c i = 0) → ∀ x y, x < 4 → y < 4 →
    interT c y 0 = c 0 ∧ (x ≠ 0 → interT c y x = 0) ∧ quadAt (passAcross c y) x = c 0 ∧
    blockResidual c y x = sra (c 0 + 4) 3 ∧
    (-4 ≤ c 0 → c 0 ≤ 3 → ∀ s : Int, 0 ≤ s → s ≤ 255 → mergeSample s (blockResidual c y x) = s)

/-- ITXDC and ITX leave the same state on blocks whose coefficients 1 to 15 are zero
(41_inverse_transform R100). -/
def Obligations.ItxdcEqualsItxOnDcBlocks : Prop :=
  ∀ (a b : Word) (s : State), Defined (.itx false a b) s →
    (∀ i : Nat, 1 ≤ i → i < 16 → coef s.mem (zext a + 2 * i) = 0) →
    exec (.itxdc a b) s = exec (.itx false a b) s

/-- ITXAC3 and ITX leave the same state on blocks whose coefficients other than 0, 1 and 4 are zero, and
ITXAC3 and ITXDC if coefficients 1 and 4 are zero (41_inverse_transform R103). -/
def Obligations.Itxac3EqualsItxOnAc3Blocks : Prop :=
  ∀ (a b : Word) (s : State),
    (Defined (.itx false a b) s →
      (∀ i : Nat, i < 16 → i ≠ 0 → i ≠ 1 → i ≠ 4 → coef s.mem (zext a + 2 * i) = 0) →
      exec (.itxac3 a b) s = exec (.itx false a b) s) ∧
    (Defined (.itxac3 a b) s → coef s.mem (zext a + 2) = 0 → coef s.mem (zext a + 8) = 0 →
      exec (.itxac3 a b) s = exec (.itxdc a b) s)

/-- The stored Walsh-Hadamard value is the exact one where the input magnitudes sum to at most 262140, and
wraps at the extremes (41_inverse_transform R97). -/
def Obligations.WalshOutputFitsOrWraps : Prop :=
  (∀ w : Nat → Int, (∑ i ∈ Finset.range 16, |w i|) ≤ 262140 → ∀ i, i < 16 → trunc16 (whtG w i) = whtG w i) ∧
  whtG (fun _ => -32768) 0 = -65536 ∧ trunc16 (whtG (fun _ => -32768) 0) = 0 ∧
  whtG (fun _ => 32767) 0 = 65534 ∧ trunc16 (whtG (fun _ => 32767) 0) = -2

/-! ## The deblocking filter -/

/-- `hev` is the strict comparison of the activity with HEVT: it does not see `p0 - q0`, and no lane has it
when HEVT is 255 or more (42_deblock R107, R108). -/
def Obligations.HevComparesTheActivity : Prop :=
  ∀ (lim : Limits) (n : Lane), InSampleRange n →
    (laneHev lim n = true ↔ max |n.p1 - n.p0| |n.q1 - n.q0| > lim.hevt) ∧
    (lim.hevt ≥ 255 → laneHev lim n = false) ∧
    (lim.hevt ≥ 0 → n.p1 = n.p0 → n.q1 = n.q0 → laneHev lim n = false)

/-- A lane is filtered exactly when `d0` is within ELIM and the six neighbour differences are within ILIM;
`d0` lies in [0, 637] (42_deblock R106, R109, R110, R111). -/
def Obligations.MaskIsWithinTheLimits : Prop :=
  ∀ (lim : Limits) (n : Lane), InSampleRange n →
    (laneMask lim n = true ↔
      2 * |n.p0 - n.q0| + sra |n.p1 - n.q1| 1 ≤ lim.elim ∧
      |n.p3 - n.p2| ≤ lim.ilim ∧ |n.p2 - n.p1| ≤ lim.ilim ∧ |n.p1 - n.p0| ≤ lim.ilim ∧
      |n.q1 - n.q0| ≤ lim.ilim ∧ |n.q2 - n.q1| ≤ lim.ilim ∧ |n.q3 - n.q2| ≤ lim.ilim) ∧
    laneMask lim n = !laneExceed lim n ∧ laneD0 n = 2 * |n.p0 - n.q0| + sra |n.p1 - n.q1| 1 ∧
    0 ≤ laneD0 n ∧ laneD0 n ≤ 637

/-- The 4-tap kernel, step by step (42_deblock R113 to R117). -/
def Obligations.FourTapKernel : Prop :=
  ∀ (lim : Limits) (n : Lane) (filt f1 f2 f3 : Int),
    filt = (if laneMask lim n then
      clamp8s ((if laneHev lim n then clamp8s ((n.p1 - 128) - (n.q1 - 128)) else 0) +
        3 * ((n.q0 - 128) - (n.p0 - 128))) else 0) →
    f1 = sra (clamp8s (filt + 4)) 3 → f2 = sra (clamp8s (filt + 3)) 3 → f3 = sra (f1 + 1) 1 →
    kernelF4 lim n =
      ⟨n.p3, n.p2,
       if laneHev lim n then n.p1 else clamp8s (n.p1 - 128 + f3) + 128,
       clamp8s (n.p0 - 128 + f2) + 128, clamp8s (n.q0 - 128 - f1) + 128,
       if laneHev lim n then n.q1 else clamp8s (n.q1 - 128 - f3) + 128, n.q2, n.q3⟩

/-- The 6-tap kernel, step by step (42_deblock R119, R120). -/
def Obligations.SixTapKernel : Prop :=
  ∀ (lim : Limits) (n : Lane) (a fh fn P0 Q0 u2 u1 u0 : Int),
    a = clamp8s (clamp8s ((n.p1 - 128) - (n.q1 - 128)) + 3 * ((n.q0 - 128) - (n.p0 - 128))) →
    fh = (if laneMask lim n = true ∧ laneHev lim n = true then a else 0) →
    fn = (if laneMask lim n = true ∧ laneHev lim n = false then a else 0) →
    P0 = clamp8s (n.p0 - 128 + sra (clamp8s (fh + 3)) 3) →
    Q0 = clamp8s (n.q0 - 128 - sra (clamp8s (fh + 4)) 3) →
    u2 = clamp8s (sra (9 * fn + 63) 7) → u1 = clamp8s (sra (18 * fn + 63) 7) →
    u0 = clamp8s (sra (27 * fn + 63) 7) →
    kernelF6 lim n =
      ⟨n.p3, clamp8s (n.p2 - 128 + u2) + 128, clamp8s (n.p1 - 128 + u1) + 128, clamp8s (P0 + u0) + 128,
       clamp8s (Q0 - u0) + 128, clamp8s (n.q1 - 128 - u1) + 128, clamp8s (n.q2 - 128 - u2) + 128, n.q3⟩

/-- Properties (a) to (e) of the 4-tap kernel (42_deblock R118). -/
def Obligations.FourTapProperties : Prop :=
  ∀ (lim : Limits) (n : Lane), InSampleRange n →
    ((kernelF4 lim n).p3 = n.p3 ∧ (kernelF4 lim n).p2 = n.p2 ∧ (kernelF4 lim n).q2 = n.q2 ∧
      (kernelF4 lim n).q3 = n.q3) ∧
    (laneMask lim n = false → kernelF4 lim n = n) ∧
    (laneHev lim n = true → (kernelF4 lim n).p1 = n.p1 ∧ (kernelF4 lim n).q1 = n.q1) ∧
    InSampleRange (kernelF4 lim n) ∧
    |(kernelF4 lim n).p0 - n.p0| ≤ 16 ∧ |(kernelF4 lim n).q0 - n.q0| ≤ 16 ∧
    |(kernelF4 lim n).p1 - n.p1| ≤ 8 ∧ |(kernelF4 lim n).q1 - n.q1| ≤ 8

/-- Properties (a) to (e) of the 6-tap kernel (42_deblock R121). -/
def Obligations.SixTapProperties : Prop :=
  ∀ (lim : Limits) (n : Lane), InSampleRange n →
    ((kernelF6 lim n).p3 = n.p3 ∧ (kernelF6 lim n).q3 = n.q3) ∧
    (laneMask lim n = false → kernelF6 lim n = n) ∧
    (laneMask lim n = true → laneHev lim n = true →
      (kernelF6 lim n).p2 = n.p2 ∧ (kernelF6 lim n).p1 = n.p1 ∧ (kernelF6 lim n).q1 = n.q1 ∧
      (kernelF6 lim n).q2 = n.q2) ∧
    (laneHev lim n = true → kernelF6 lim n = kernelF4 lim n) ∧
    InSampleRange (kernelF6 lim n) ∧
    (laneHev lim n = false →
      |(kernelF6 lim n).p2 - n.p2| ≤ 9 ∧ |(kernelF6 lim n).q2 - n.q2| ≤ 9 ∧
      |(kernelF6 lim n).p1 - n.p1| ≤ 18 ∧ |(kernelF6 lim n).q1 - n.q1| ≤ 18 ∧
      |(kernelF6 lim n).p0 - n.p0| ≤ 27 ∧ |(kernelF6 lim n).q0 - n.q0| ≤ 27) ∧
    (laneHev lim n = true →
      |(kernelF6 lim n).p0 - n.p0| ≤ 16 ∧ |(kernelF6 lim n).q0 - n.q0| ≤ 16)

/-- FOV: one edge at A with the 6-tap kernel, taps STRIDE apart, lanes one apart; nothing else changes
(42_deblock R123, R124). -/
def Obligations.FovFiltersTheEdgeAbove : Prop :=
  ∀ (a stride : Word) (elim ilim hevt : Half) (s : State), Defined (.fov a stride elim ilim hevt) s →
    ∃ t, exec (.fov a stride elim ilim hevt) s = .next t ∧
      (encode (.fov a stride elim ilim hevt)).word 0 = 0x008 ∧
      EdgeFiltered s.mem t.mem (zext a) (zext stride) 1 .f6 ⟨zext elim, zext ilim, zext hevt⟩ ∧
      OnlyStoresTo s t (edgeAddrs (zext a) (zext stride) 1 [-3, -2, -1, 0, 1, 2])

/-- FOH: one edge at A with the 6-tap kernel, taps one apart, lanes STRIDE apart; nothing else changes
(42_deblock R123, R125). -/
def Obligations.FohFiltersTheEdgeAtTheLeft : Prop :=
  ∀ (a stride : Word) (elim ilim hevt : Half) (s : State), Defined (.foh a stride elim ilim hevt) s →
    ∃ t, exec (.foh a stride elim ilim hevt) s = .next t ∧
      (encode (.foh a stride elim ilim hevt)).word 0 = 0x009 ∧
      EdgeFiltered s.mem t.mem (zext a) 1 (zext stride) .f6 ⟨zext elim, zext ilim, zext hevt⟩ ∧
      OnlyStoresTo s t (edgeAddrs (zext a) 1 (zext stride) [-3, -2, -1, 0, 1, 2])

/-- FIV: the edges 4, 8 and 12 rows into the macroblock, one after another with the 4-tap kernel, each on
what the one before it left; nothing else changes (42_deblock R126, R128). -/
def Obligations.FivFiltersThreeEdgesInOrder : Prop :=
  ∀ (a stride : Word) (elim ilim hevt : Half) (s : State), Defined (.fiv a stride elim ilim hevt) s →
    ∃ t, exec (.fiv a stride elim ilim hevt) s = .next t ∧
      (encode (.fiv a stride elim ilim hevt)).word 0 = 0x00A ∧
      (∃ m1 m2 : Memory,
        EdgeFiltered s.mem m1 (zext a + 4 * zext stride) (zext stride) 1 .f4 ⟨zext elim, zext ilim, zext hevt⟩ ∧
        EdgeFiltered m1 m2 (zext a + 8 * zext stride) (zext stride) 1 .f4 ⟨zext elim, zext ilim, zext hevt⟩ ∧
        EdgeFiltered m2 t.mem (zext a + 12 * zext stride) (zext stride) 1 .f4
          ⟨zext elim, zext ilim, zext hevt⟩) ∧
      OnlyStoresTo s t
        (edgeAddrs (zext a + 4 * zext stride) (zext stride) 1 [-2, -1, 0, 1] ++
         edgeAddrs (zext a + 8 * zext stride) (zext stride) 1 [-2, -1, 0, 1] ++
         edgeAddrs (zext a + 12 * zext stride) (zext stride) 1 [-2, -1, 0, 1])

/-- FIH: the edges 4, 8 and 12 columns into the macroblock, one after another with the 4-tap kernel, each
on what the one before it left; nothing else changes (42_deblock R127, R128). -/
def Obligations.FihFiltersThreeEdgesInOrder : Prop :=
  ∀ (a stride : Word) (elim ilim hevt : Half) (s : State), Defined (.fih a stride elim ilim hevt) s →
    ∃ t, exec (.fih a stride elim ilim hevt) s = .next t ∧
      (encode (.fih a stride elim ilim hevt)).word 0 = 0x00B ∧
      (∃ m1 m2 : Memory,
        EdgeFiltered s.mem m1 (zext a + 4) 1 (zext stride) .f4 ⟨zext elim, zext ilim, zext hevt⟩ ∧
        EdgeFiltered m1 m2 (zext a + 8) 1 (zext stride) .f4 ⟨zext elim, zext ilim, zext hevt⟩ ∧
        EdgeFiltered m2 t.mem (zext a + 12) 1 (zext stride) .f4 ⟨zext elim, zext ilim, zext hevt⟩) ∧
      OnlyStoresTo s t
        (edgeAddrs (zext a + 4) 1 (zext stride) [-2, -1, 0, 1] ++
         edgeAddrs (zext a + 8) 1 (zext stride) [-2, -1, 0, 1] ++
         edgeAddrs (zext a + 12) 1 (zext stride) [-2, -1, 0, 1])

/-- A filter command leaves every byte of memory as it was when the mask is false in every lane of every
edge it filters (42_deblock R131, second sentence). -/
def Obligations.MaskedOffEdgesStayUnchanged : Prop :=
  ∀ (i : Instr) (e0s : List Int) (st ln : Int) (lim : Limits) (s : State),
    edgesOf i = some (e0s, st, ln, lim) → Defined i s →
    (∀ e0 ∈ e0s, ∀ l, l < 16 → laneMask lim (readLane s.mem e0 st ln l) = false) →
    ∃ t, exec i s = .next t ∧ ∀ a : Nat, t.mem.read a = s.mem.read a

/-- The horizontal-direction commands give on an image what the vertical-direction commands give on its
transpose (42_deblock R129, first sentence). -/
def Obligations.OrientationDoesNotChangeArithmetic : Prop :=
  ∀ (a a' sv sh : Word) (elim ilim hevt : Half) (s s' : State),
    (Defined (.fov a sv elim ilim hevt) s → Defined (.foh a' sh elim ilim hevt) s' →
      (∀ l : Nat, l < 16 → ∀ k ∈ allTaps,
        pix s'.mem (zext a' + l * zext sh + k) = pix s.mem (zext a + k * zext sv + l)) →
      ∃ t t', exec (.fov a sv elim ilim hevt) s = .next t ∧ exec (.foh a' sh elim ilim hevt) s' = .next t' ∧
        ∀ l : Nat, l < 16 → ∀ k ∈ allTaps,
          pix t'.mem (zext a' + l * zext sh + k) = pix t.mem (zext a + k * zext sv + l)) ∧
    (Defined (.fiv a sv elim ilim hevt) s → Defined (.fih a' sh elim ilim hevt) s' →
      (∀ l r : Nat, l < 16 → r < 16 →
        pix s'.mem (zext a' + l * zext sh + r) = pix s.mem (zext a + r * zext sv + l)) →
      ∃ t t', exec (.fiv a sv elim ilim hevt) s = .next t ∧ exec (.fih a' sh elim ilim hevt) s' = .next t' ∧
        ∀ l r : Nat, l < 16 → r < 16 →
          pix t'.mem (zext a' + l * zext sh + r) = pix t.mem (zext a + r * zext sv + l))

/-- The samples a filter command leaves in a lane depend on that lane's samples alone: two states that agree
on lane `l` of what the command reads agree on it afterwards. Lane `l` is column `l` of the rows FOV and FIV
read and row `l` of the columns FOH and FIH read (42_deblock R122). -/
def Obligations.LanesAreIndependent : Prop :=
  ∀ (a sd : Word) (elim ilim hevt : Half) (s s' : State) (l : Nat), l < 16 → s'.platform = s.platform →
    (Defined (.fov a sd elim ilim hevt) s →
      (∀ k ∈ allTaps, pix s'.mem (zext a + k * zext sd + l) = pix s.mem (zext a + k * zext sd + l)) →
      ∃ t t', exec (.fov a sd elim ilim hevt) s = .next t ∧ exec (.fov a sd elim ilim hevt) s' = .next t' ∧
        ∀ k ∈ allTaps, pix t'.mem (zext a + k * zext sd + l) = pix t.mem (zext a + k * zext sd + l)) ∧
    (Defined (.foh a sd elim ilim hevt) s →
      (∀ k ∈ allTaps, pix s'.mem (zext a + l * zext sd + k) = pix s.mem (zext a + l * zext sd + k)) →
      ∃ t t', exec (.foh a sd elim ilim hevt) s = .next t ∧ exec (.foh a sd elim ilim hevt) s' = .next t' ∧
        ∀ k ∈ allTaps, pix t'.mem (zext a + l * zext sd + k) = pix t.mem (zext a + l * zext sd + k)) ∧
    (Defined (.fiv a sd elim ilim hevt) s →
      (∀ r : Nat, r < 16 → pix s'.mem (zext a + r * zext sd + l) = pix s.mem (zext a + r * zext sd + l)) →
      ∃ t t', exec (.fiv a sd elim ilim hevt) s = .next t ∧ exec (.fiv a sd elim ilim hevt) s' = .next t' ∧
        ∀ r : Nat, r < 16 → pix t'.mem (zext a + r * zext sd + l) = pix t.mem (zext a + r * zext sd + l)) ∧
    (Defined (.fih a sd elim ilim hevt) s →
      (∀ r : Nat, r < 16 → pix s'.mem (zext a + l * zext sd + r) = pix s.mem (zext a + l * zext sd + r)) →
      ∃ t t', exec (.fih a sd elim ilim hevt) s = .next t ∧ exec (.fih a sd elim ilim hevt) s' = .next t' ∧
        ∀ r : Nat, r < 16 → pix t'.mem (zext a + l * zext sd + r) = pix t.mem (zext a + l * zext sd + r))

/-- The stride bounds of R35 (a) are exactly what distinct addresses of distinct sample positions need: 16
for FOV, FIV and FIH, 8 for FOH, and for the transforms BPS 4, or 8 with TWO (20_memory R35,
90_conflicts C14). -/
def Obligations.StrideBoundsMeanDistinctAddresses : Prop :=
  (∀ a s : Int, 0 ≤ s →
    ((∀ l l' : Nat, ∀ k ∈ allTaps, ∀ k' ∈ allTaps, l < 16 → l' < 16 →
        tapAddr a s 1 l k = tapAddr a s 1 l' k' → l = l' ∧ k = k') ↔ 16 ≤ s) ∧
    ((∀ l l' : Nat, ∀ k ∈ allTaps, ∀ k' ∈ allTaps, l < 16 → l' < 16 →
        tapAddr a 1 s l k = tapAddr a 1 s l' k' → l = l' ∧ k = k') ↔ 8 ≤ s) ∧
    ((∀ l l' r r' : Nat, l < 16 → l' < 16 → r < 16 → r' < 16 →
        a + r * s + l = a + r' * s + l' → l = l' ∧ r = r') ↔ 16 ≤ s)) ∧
  ∀ (bps : Nat) (b : Int),
    ((∀ x x' y y' : Nat, x < 4 → x' < 4 → y < 4 → y' < 4 →
        pixAddr bps b x y = pixAddr bps b x' y' → x = x' ∧ y = y') ↔ 4 ≤ bps) ∧
    ((∀ x x' y y' : Nat, x < 8 → x' < 8 → y < 4 → y' < 4 →
        pixAddr bps b x y = pixAddr bps b x' y' → x = x' ∧ y = y') ↔ 8 ≤ bps)

/-! ## Preconditions, refusals, completion -/

/-- A command answers a next state exactly when its preconditions hold (60_exceptions R143, R149;
70_reset R159, R170). -/
def Obligations.CommandsCompleteExactlyWhenDefined : Prop :=
  ∀ (i : Instr) (s : State), (∃ t, exec i s = .next t) ↔ Defined i s

/-- On a platform where all of memory is ordinary, the transforms complete from conditions on their
operands alone (20_memory R28, R29, R35; 70_reset R159). -/
def Obligations.TransformsCompleteInPlainMemory : Prop :=
  ∀ (a b : Word) (s : State), s.platform.map = [⟨0, 2 ^ 32, .ram⟩] → a.toNat % 2 = 0 →
    (∀ two : Bool, 8 ≤ s.platform.bps → a.toNat + (if two then 64 else 32) ≤ 2 ^ 32 →
      b.toNat + 3 * s.platform.bps + (if two then 8 else 4) ≤ 2 ^ 32 →
      (a.toNat + (if two then 64 else 32) ≤ b.toNat ∨
        b.toNat + 3 * s.platform.bps + (if two then 8 else 4) ≤ a.toNat) →
      ∃ t, exec (.itx two a b) s = .next t) ∧
    (b.toNat % 2 = 0 → a.toNat + 32 ≤ 2 ^ 32 → b.toNat + 512 ≤ 2 ^ 32 →
      (a.toNat + 32 ≤ b.toNat ∨ b.toNat + 482 ≤ a.toNat) → ∃ t, exec (.iwht a b) s = .next t) ∧
    (8 ≤ s.platform.bps → a.toNat + 32 ≤ 2 ^ 32 → b.toNat + 3 * s.platform.bps + 4 ≤ 2 ^ 32 →
      ((a.toNat + 2 ≤ b.toNat ∨ b.toNat + 3 * s.platform.bps + 4 ≤ a.toNat) →
        ∃ t, exec (.itxdc a b) s = .next t) ∧
      ((a.toNat + 10 ≤ b.toNat ∨ b.toNat + 3 * s.platform.bps + 4 ≤ a.toNat) →
        ∃ t, exec (.itxac3 a b) s = .next t))

/-- On a platform where all of memory is ordinary, the filters complete from conditions on their operands
alone (20_memory R29, R35; 42_deblock R124 to R127). -/
def Obligations.FiltersCompleteInPlainMemory : Prop :=
  ∀ (a sd : Word) (elim ilim hevt : Half) (s : State), s.platform.map = [⟨0, 2 ^ 32, .ram⟩] →
    (16 ≤ sd.toNat → 4 * sd.toNat ≤ a.toNat → a.toNat + 3 * sd.toNat + 16 ≤ 2 ^ 32 →
      ∃ t, exec (.fov a sd elim ilim hevt) s = .next t) ∧
    (8 ≤ sd.toNat → 4 ≤ a.toNat → a.toNat + 15 * sd.toNat + 4 ≤ 2 ^ 32 →
      ∃ t, exec (.foh a sd elim ilim hevt) s = .next t) ∧
    (16 ≤ sd.toNat → a.toNat + 15 * sd.toNat + 16 ≤ 2 ^ 32 →
      (∃ t, exec (.fiv a sd elim ilim hevt) s = .next t) ∧ ∃ t, exec (.fih a sd elim ilim hevt) s = .next t)

/-- The checks are made in the order of R147, and the first that fails decides the refusal
(60_exceptions R141, R147; checks (2) to (6)). -/
def Obligations.FirstBrokenPreconditionDecides : Prop :=
  ∀ (i : Instr) (s : State) (p : Plan), p = planOf i s.platform →
    (¬GoodParameter p s.platform → exec i s = .refused .badParameter) ∧
    (GoodParameter p s.platform → ¬Aligned p →
      ∃ a ∈ p.coefBases, a % 2 ≠ 0 ∧ exec i s = .refused (.misalignedCoef a)) ∧
    (GoodParameter p s.platform → Aligned p → ¬Reachable p s.platform →
      ∃ a ∈ planExtent p, ¬(0 ≤ a ∧ a < 2 ^ 32 ∧ admits s.platform a = true) ∧
        exec i s = .refused (.addressRange a)) ∧
    (GoodParameter p s.platform → Aligned p → Reachable p s.platform → ¬Separate p →
      exec i s = .refused .overlappingFootprint) ∧
    (GoodParameter p s.platform → Aligned p → Reachable p s.platform → Separate p → ¬Ordinary p s.platform →
      exec i s = .refused .notMemory)

/-- A command whose own fields break a duty of the host (an odd coefficient address, a stride that is too
small) is refused in every state (70_reset R159 P3, P5). -/
def Obligations.IllFormedCommandsAreRefused : Prop :=
  ∀ (i : Instr) (s : State), i.wellFormed = false → ∃ r, exec i s = .refused r

/-! ## The whole machine -/

/-- A step with a legal descriptor in the latch and no access or reset ahead of its completion is that
command's `exec`; an illegal one faults with its W0 (30_encoding R45, R52; 60_exceptions R142). -/
def Obligations.StepRunsTheLatchedCommand : Prop :=
  ∀ (s : State) (d : Descriptor), s.latch = some d →
    (∀ i, decode d = .ok i → (∀ x rest, s.inbox ≠ .access x :: rest) → (∀ rest, s.inbox ≠ .reset :: rest) →
      step s = exec i s) ∧
    ∀ e, decode d = .error e → step s = .fault (.illegalCommand (d.word 0))

/-- An idle PRE takes the host's inputs one by one: a descriptor goes to the latch, an access stores its bytes
(the last one where it writes an address twice) and changes no other, a wait or a reset changes nothing, and
with no input left nothing changes (30_encoding R45; 70_reset R156, R171; the inbox and the idle step are the
model's, log 1, log 16). -/
def Obligations.IdleEngineTakesInputs : Prop :=
  ∀ s : State, s.latch = none →
    (∀ d rest, s.inbox = .deliver d :: rest → step s = .next { s with latch := some d, inbox := rest }) ∧
    (∀ x rest, s.inbox = .access x :: rest → ∃ t, step s = .next t ∧
      t = { s with inbox := rest, mem := t.mem } ∧ AccessLands x s.mem t.mem) ∧
    (∀ rest, s.inbox = .await :: rest → step s = .next { s with inbox := rest }) ∧
    (∀ rest, s.inbox = .reset :: rest → step s = .next { s with inbox := rest }) ∧
    (s.inbox = [] → step s = .next s)

/-- Reset leaves the PRE idle with no completion signalled (10_state R24); memory with nothing listed, an
empty inbox and the launch platform are the model's choices (log 1 to 4, 13, 14). -/
def Obligations.ResetIsIdle : Prop :=
  State.reset.latch = none ∧ State.reset.inbox = [] ∧ State.reset.mem = [] ∧
  State.reset.platform.bps = 32 ∧ State.reset.completions = 0 ∧ State.reset.mem.wf = true ∧
  step State.reset = .next State.reset

/-- Every step from a state with canonical memory leads to one: addresses rise strictly, lie in the
address space, and none lists the byte an unlisted address reads as (20_memory R25; MEMORY's form is the
model's, log 2). -/
def Obligations.StepsKeepMemoryCanonical : Prop :=
  ∀ s t : State, s.mem.wf = true → step s = .next t → t.mem.wf = true

/-- A step that runs or abandons a command changes no byte outside the command's write footprint, and no
step changes the launch parameters (20_memory R34; 10_state R13). -/
def Obligations.StepsWriteOnlyTheFootprint : Prop :=
  ∀ s t : State, step s = .next t →
    t.platform = s.platform ∧
    ∀ d i, s.latch = some d → decode d = .ok i → (∀ x rest, s.inbox ≠ .access x :: rest) →
      ∀ a : Nat, (a : Int) ∉ (planOf i s.platform).writes → t.mem.read a = s.mem.read a

/-- What a command writes is a function of its descriptor and its read footprint: memories that agree there
agree on the write footprint afterwards (10_state R22, 20_memory R34). -/
def Obligations.ResultsDependOnTheReadFootprint : Prop :=
  ∀ (i : Instr) (s s' : State), s'.platform = s.platform → Defined i s →
    (∀ a ∈ planReads (planOf i s.platform), s'.mem.read a.toNat = s.mem.read a.toNat) →
    ∃ t t', exec i s = .next t ∧ exec i s' = .next t' ∧
      ∀ a ∈ (planOf i s.platform).writes, t'.mem.read a.toNat = t.mem.read a.toNat

/-- Completion follows each command that runs, once, and an abandoned or shared one not yet
(60_exceptions R145, 70_reset R157). -/
def Obligations.CompletionIsSignalledOnce : Prop :=
  ∀ (s t : State) (d : Descriptor), s.latch = some d → step s = .next t →
    (t.latch = none ∧ t.completions = s.completions + 1 ∧ t.inbox = s.inbox ∧ t.draws = s.draws) ∨
    (∃ x, s.inbox = .access x :: t.inbox ∧ t.latch = some d ∧ t.completions = s.completions ∧
      t.draws = s.draws) ∨
    (s.inbox = .reset :: t.inbox ∧ t.latch = none ∧ t.completions = s.completions ∧ t.draws = s.draws + 1)

/-- A reset while a command executes: the PRE is idle without completion, each byte of the write footprint
is as some prefix of the command's units left it (no unit is the memory before the command, all units the
memory after it), so for every command but FIV and FIH it is the old byte or the one the command would have
written, and every other byte is as before (70_reset R157). -/
def Obligations.AbandonedCommandMixesOldAndNew : Prop :=
  ∀ (s : State) (d : Descriptor) (i : Instr) (rest : List HostEvent), s.latch = some d → decode d = .ok i →
    s.inbox = .reset :: rest → Defined i s →
    ∃ t u, step s = .next t ∧ exec i s = .next u ∧
      t.latch = none ∧ t.inbox = rest ∧ t.completions = s.completions ∧ t.platform = s.platform ∧
      (∀ a ∈ (planOf i s.platform).writes, ∃ k, k ≤ (planOf i s.platform).units.length ∧
        t.mem.read a.toNat = (memAfter (planOf i s.platform) s.mem k).read a.toNat) ∧
      ((∀ a sd e l h, i ≠ .fiv a sd e l h ∧ i ≠ .fih a sd e l h) → ∀ a ∈ (planOf i s.platform).writes,
        t.mem.read a.toNat = s.mem.read a.toNat ∨ t.mem.read a.toNat = u.mem.read a.toNat) ∧
      (∀ a : Nat, (a : Int) ∉ (planOf i s.platform).writes → t.mem.read a = s.mem.read a) ∧
      memAfter (planOf i s.platform) s.mem 0 = s.mem ∧
      memAfter (planOf i s.platform) s.mem (planOf i s.platform).units.length = u.mem

/-- An access by another agent while a command executes is refused if it writes the command's footprints or
reads its write footprint, after the command's own checks (20_memory R41; 60_exceptions R147 (7), R154).
Otherwise every byte it writes lands, no other byte changes, and the command is still in the latch: that such
an access lands before the command, which then runs, is the model's choice (log 12; the two orders give the
same memory). -/
def Obligations.ConcurrentAccessIsRefused : Prop :=
  ∀ (s : State) (d : Descriptor) (i : Instr) (x : Access) (rest : List HostEvent) (p : Plan),
    p = planOf i s.platform → s.latch = some d → decode d = .ok i → s.inbox = .access x :: rest →
    (∀ r, exec i s = .refused r → step s = .refused r) ∧
    (Defined i s →
      (((∃ w ∈ x.writes, zext w.1 ∈ planFootprint p) ∨ ∃ a ∈ x.reads, zext a ∈ p.writes) →
        step s = .refused .concurrentAccess) ∧
      ((∀ w ∈ x.writes, zext w.1 ∉ planFootprint p) → (∀ a ∈ x.reads, zext a ∉ p.writes) →
        ∃ t, step s = .next t ∧ t = { s with inbox := rest, mem := t.mem } ∧ AccessLands x s.mem t.mem ∧
          ∀ a ∈ planFootprint p, t.mem.read a.toNat = s.mem.read a.toNat))

/-- A command delivered to an idle PRE whose host waits for it runs to completion in three steps, with the
memory its `exec` gives, and the run is over (30_encoding R45; 70_reset R170, R172). -/
def Obligations.DeliveredCommandRunsToCompletion : Prop :=
  ∀ (i : Instr) (s : State), s.latch = none → s.inbox = [.deliver (encode i), .await] → Defined i s →
    ∃ t u, Host.Core.run Sys2Proof.core 3 s = .next t ∧ Finished t ∧ SafeRun 3 s ∧
      t.completions = s.completions + 1 ∧
      exec i s = .next u ∧ t.mem = u.mem ∧ t.platform = s.platform
end

