-- ==== Sys2Proof/Laws/Memory.lean ====
section
/-! SUPPORT. The laws of memory: a read after a write, the canonical form, and that canonical memories
that read alike are equal. -/

namespace Sys2Proof.Machine

/-! ## Reading -/

@[simp] theorem Memory.read_nil (a : Nat) : Memory.read [] a = unlistedByte := rfl

theorem Memory.read_cons (c : Host.Cell) (m : Memory) (a : Nat) :
    Memory.read (c :: m) a = if c.1 = a then c.2 else Memory.read m a := rfl

/-- An erased address reads as unlisted, the others as before. -/
theorem Memory.read_erase (m : Memory) (a b : Nat) :
    (Memory.erase m a).read b = if a = b then unlistedByte else m.read b := by
  induction m with
  | nil => simp [Memory.erase]
  | cons c m ih =>
    simp only [Memory.erase, List.filter_cons, Memory.read_cons] at ih ⊢
    by_cases hc : c.1 = a <;> by_cases hb : a = b <;> simp_all [Memory.read_cons]

/-- Inserting at an address that memory does not list. -/
theorem Memory.read_insert (m : Memory) (a b : Nat) (v : Byte) (h : ∀ c ∈ m, c.1 ≠ a) :
    (Memory.insert m a v).read b = if a = b then v else m.read b := by
  induction m with
  | nil => simp [Memory.insert, Memory.read_cons]
  | cons c m ih =>
    have hc : c.1 ≠ a := h c (by simp)
    have hm := ih (fun c' hc' => h c' (by simp [hc']))
    by_cases hlt : a < c.1 <;> simp only [Memory.insert, hlt, if_true, if_false, Memory.read_cons, hm]
    grind

theorem Memory.erase_unlisted (m : Memory) (a : Nat) : ∀ c ∈ Memory.erase m a, c.1 ≠ a := by
  intro c hc
  have := (List.mem_filter.mp hc).2
  simpa using this

/-- A read after a write: the byte written at its address, every other byte as before. It holds in every
memory, canonical or not. -/
theorem Memory.read_write (m : Memory) (a b : Nat) (v : Byte) :
    (m.write a v).read b = if a = b then v else m.read b := by
  unfold Memory.write
  split
  · rename_i hv
    rw [Memory.read_erase, hv]
  · rw [Memory.read_insert _ _ _ _ (Memory.erase_unlisted m a), Memory.read_erase]
    grind

@[simp] theorem Memory.read_write_same (m : Memory) (a : Nat) (v : Byte) : (m.write a v).read a = v := by
  simp [Memory.read_write]

theorem Memory.read_write_other (m : Memory) (a b : Nat) (v : Byte) (h : a ≠ b) :
    (m.write a v).read b = m.read b := by
  simp [Memory.read_write, h]

/-! ## Lists of stores -/

@[simp] theorem Memory.writeAll_nil (m : Memory) : m.writeAll [] = m := rfl

@[simp] theorem Memory.writeAll_cons (m : Memory) (w : Store) (ws : List Store) :
    m.writeAll (w :: ws) = (m.write w.1.toNat w.2).writeAll ws := rfl

theorem Memory.writeAll_append (m : Memory) (ws vs : List Store) :
    m.writeAll (ws ++ vs) = (m.writeAll ws).writeAll vs := by
  simp [Memory.writeAll, List.foldl_append]

/-- A byte that no store addresses reads as before. -/
theorem Memory.read_writeAll_other (ws : List Store) (m : Memory) (b : Nat)
    (h : ∀ w ∈ ws, w.1.toNat ≠ b) : (m.writeAll ws).read b = m.read b := by
  induction ws generalizing m with
  | nil => rfl
  | cons w ws ih =>
    rw [Memory.writeAll_cons, ih _ (fun w' hw' => h w' (by simp [hw'])),
      Memory.read_write_other _ _ _ _ (h w (by simp))]

/-- If all stores to an address store the same byte, and there is one, it reads as that byte. -/
theorem Memory.read_writeAll_same (ws : List Store) (m : Memory) (b : Nat) (v : Byte)
    (hin : ∃ w ∈ ws, w.1.toNat = b) (h : ∀ w ∈ ws, w.1.toNat = b → w.2 = v) :
    (m.writeAll ws).read b = v := by
  induction ws generalizing m with
  | nil => simp at hin
  | cons w ws ih =>
    rw [Memory.writeAll_cons]
    by_cases hws : ∃ w' ∈ ws, w'.1.toNat = b
    · exact ih _ hws (fun w' hw' => h w' (by simp [hw']))
    · have hno : ∀ w' ∈ ws, w'.1.toNat ≠ b := fun w' hw' e => hws ⟨w', hw', e⟩
      rw [Memory.read_writeAll_other _ _ _ hno]
      obtain ⟨w', hw', e⟩ := hin
      rcases List.mem_cons.mp hw' with rfl | hw'
      · rw [← h w' (by simp) e, ← e, Memory.read_write_same]
      · exact absurd e (hno w' hw')

/-- The last store to an address decides what it reads as. -/
theorem Memory.read_writeAll_last (before after : List Store) (w : Store) (m : Memory)
    (h : ∀ v ∈ after, v.1.toNat ≠ w.1.toNat) :
    (m.writeAll (before ++ w :: after)).read w.1.toNat = w.2 := by
  rw [Memory.writeAll_append, Memory.writeAll_cons, Memory.read_writeAll_other _ _ _ h, Memory.read_write_same]

/-- The same stores over two memories: an address that reads alike before reads alike after. -/
theorem Memory.read_writeAll_congr (ws : List Store) (m m' : Memory) (b : Nat) (h : m.read b = m'.read b) :
    (m.writeAll ws).read b = (m'.writeAll ws).read b := by
  induction ws generalizing m m' with
  | nil => exact h
  | cons w ws ih =>
    refine ih _ _ ?_
    rw [Memory.read_write, Memory.read_write, h]

/-- The same stores over two memories: an address that one of them stores to reads alike after. -/
theorem Memory.read_writeAll_stored (ws : List Store) (m m' : Memory) (b : Nat)
    (h : ∃ w ∈ ws, w.1.toNat = b) : (m.writeAll ws).read b = (m'.writeAll ws).read b := by
  induction ws generalizing m m' with
  | nil => simp at h
  | cons w ws ih =>
    rw [Memory.writeAll_cons, Memory.writeAll_cons]
    by_cases hw : w.1.toNat = b
    · refine Memory.read_writeAll_congr _ _ _ _ ?_
      rw [← hw, Memory.read_write_same, Memory.read_write_same]
    · obtain ⟨w', hw', e⟩ := h
      rcases List.mem_cons.mp hw' with rfl | hw'
      · exact absurd e hw
      · exact ih _ _ ⟨w', hw', e⟩

/-- The byte an address reads as after stores that are a function of the address: if every store is
`(a, f a)`, an addressed byte reads as `f`. -/
theorem Memory.read_writeAll_map (as : List Int) (f : Int → Byte) (m : Memory) (a : Int)
    (hpos : ∀ x ∈ as, 0 ≤ x) (ha : a ∈ as) :
    (m.writeAll (as.map (fun x => (x, f x)))).read a.toNat = f a := by
  apply Memory.read_writeAll_same
  · exact ⟨(a, f a), List.mem_map.mpr ⟨a, ha, rfl⟩, rfl⟩
  · intro w hw e
    obtain ⟨x, hx, rfl⟩ := List.mem_map.mp hw
    have h1 := hpos x hx
    have h2 := hpos a ha
    have : x = a := by simp only at e; omega
    rw [this]

/-! ## The canonical form -/

/-- What `wfFrom` says, entry by entry. -/
theorem Memory.wfFrom_cons (lo : Nat) (c : Host.Cell) (m : Memory) :
    Memory.wfFrom lo (c :: m) = true ↔
      lo ≤ c.1 ∧ c.1 < 2 ^ 32 ∧ c.2 ≠ unlistedByte ∧ Memory.wfFrom (c.1 + 1) m = true := by
  simp only [Memory.wfFrom, Bool.and_eq_true, decide_eq_true_eq, bne_iff_ne]
  tauto

theorem Memory.wfFrom_mono {lo lo' : Nat} (m : Memory) (h : Memory.wfFrom lo m = true) (hle : lo' ≤ lo) :
    Memory.wfFrom lo' m = true := by
  cases m with
  | nil => rfl
  | cons c m =>
    rw [Memory.wfFrom_cons] at h ⊢
    exact ⟨by omega, h.2⟩

theorem Memory.wfFrom_erase (m : Memory) (lo a : Nat) (h : Memory.wfFrom lo m = true) :
    Memory.wfFrom lo (Memory.erase m a) = true := by
  induction m generalizing lo with
  | nil => rfl
  | cons c m ih =>
    rw [Memory.wfFrom_cons] at h
    have htail := ih _ h.2.2.2
    by_cases hc : c.1 = a
    · simp only [Memory.erase, List.filter_cons, hc, bne_self_eq_false, Bool.false_eq_true, if_false]
      exact Memory.wfFrom_mono _ (by simpa [Memory.erase] using htail) (by omega)
    · have : (c.1 != a) = true := by simp [hc]
      simp only [Memory.erase, List.filter_cons, this, if_true]
      rw [Memory.wfFrom_cons]
      exact ⟨h.1, h.2.1, h.2.2.1, by simpa [Memory.erase] using htail⟩

theorem Memory.wfFrom_insert (m : Memory) (lo a : Nat) (v : Byte) (h : Memory.wfFrom lo m = true)
    (hnot : ∀ c ∈ m, c.1 ≠ a) (hlo : lo ≤ a) (ha : a < 2 ^ 32) (hv : v ≠ unlistedByte) :
    Memory.wfFrom lo (Memory.insert m a v) = true := by
  induction m generalizing lo with
  | nil =>
    rw [Memory.insert, Memory.wfFrom_cons]
    exact ⟨hlo, ha, hv, rfl⟩
  | cons c m ih =>
    rw [Memory.wfFrom_cons] at h
    have hca : c.1 ≠ a := hnot c (by simp)
    by_cases hlt : a < c.1 <;> simp only [Memory.insert, hlt, if_true, if_false]
    · rw [Memory.wfFrom_cons, Memory.wfFrom_cons]
      exact ⟨hlo, ha, hv, by omega, h.2⟩
    · rw [Memory.wfFrom_cons]
      exact ⟨h.1, h.2.1, h.2.2.1, ih _ h.2.2.2 (fun c' hc' => hnot c' (by simp [hc'])) (by omega)⟩

/-- A write to an address of the space keeps the canonical form. -/
theorem Memory.wf_write (m : Memory) (a : Nat) (v : Byte) (h : m.wf = true) (ha : a < 2 ^ 32) :
    (m.write a v).wf = true := by
  unfold Memory.write Memory.wf at *
  split
  · exact Memory.wfFrom_erase _ _ _ h
  · exact Memory.wfFrom_insert _ _ _ _ (Memory.wfFrom_erase _ _ _ h) (Memory.erase_unlisted m a)
      (Nat.zero_le a) ha ‹_›

/-- Stores to addresses of the space keep the canonical form. -/
theorem Memory.wf_writeAll (ws : List Store) (m : Memory) (h : m.wf = true)
    (hws : ∀ w ∈ ws, w.1.toNat < 2 ^ 32) : (m.writeAll ws).wf = true := by
  induction ws generalizing m with
  | nil => exact h
  | cons w ws ih =>
    exact ih _ (Memory.wf_write _ _ _ h (hws w (by simp))) (fun w' hw' => hws w' (by simp [hw']))

theorem Memory.read_below (m : Memory) (lo a : Nat) (h : Memory.wfFrom lo m = true) (ha : a < lo) :
    m.read a = unlistedByte := by
  induction m generalizing lo with
  | nil => rfl
  | cons c m ih =>
    rw [Memory.wfFrom_cons] at h
    rw [Memory.read_cons, if_neg (by omega)]
    exact ih _ h.2.2.2 (by omega)

theorem Memory.ext_wfFrom (m m' : Memory) (lo : Nat) (h : Memory.wfFrom lo m = true)
    (h' : Memory.wfFrom lo m' = true) (hr : ∀ a, m.read a = m'.read a) : m = m' := by
  induction m generalizing lo m' with
  | nil =>
    cases m' with
    | nil => rfl
    | cons c m' =>
      rw [Memory.wfFrom_cons] at h'
      have := hr c.1
      rw [Memory.read_cons, if_pos rfl, Memory.read_nil] at this
      exact absurd this.symm h'.2.2.1
  | cons c m ih =>
    rw [Memory.wfFrom_cons] at h
    cases m' with
    | nil =>
      have := hr c.1
      rw [Memory.read_cons, if_pos rfl, Memory.read_nil] at this
      exact absurd this h.2.2.1
    | cons d m' =>
      rw [Memory.wfFrom_cons] at h'
      have hcd : c.1 = d.1 := by
        by_contra hne
        have hc := hr c.1
        have hd := hr d.1
        rw [Memory.read_cons, if_pos rfl, Memory.read_cons, if_neg (Ne.symm hne)] at hc
        rw [Memory.read_cons, if_neg hne, Memory.read_cons, if_pos rfl] at hd
        rcases Nat.lt_or_ge c.1 d.1 with hlt | hge
        · rw [Memory.read_below m' _ _ h'.2.2.2 (by omega)] at hc
          exact h.2.2.1 hc
        · rw [Memory.read_below m _ _ h.2.2.2 (by omega)] at hd
          exact h'.2.2.1 hd.symm
      have hv : c.2 = d.2 := by
        have := hr c.1
        rwa [Memory.read_cons, if_pos rfl, Memory.read_cons, if_pos hcd.symm] at this
      have htail : ∀ a, Memory.read m a = Memory.read m' a := by
        intro a
        by_cases ha : a = c.1
        · rw [ha, Memory.read_below m _ _ h.2.2.2 (by omega),
            Memory.read_below m' _ _ h'.2.2.2 (by omega)]
        · have := hr a
          rwa [Memory.read_cons, if_neg (fun e => ha e.symm), Memory.read_cons,
            if_neg (fun e => ha (by omega))] at this
      rw [ih m' _ h.2.2.2 (by rw [hcd]; exact h'.2.2.2) htail]
      exact congrArg (· :: m') (Prod.ext hcd hv)

/-- Canonical memories that read alike at every address are equal data. -/
theorem Memory.ext (m m' : Memory) (h : m.wf = true) (h' : m'.wf = true)
    (hr : ∀ a, m.read a = m'.read a) : m = m' := Memory.ext_wfFrom m m' 0 h h' hr

/-! ## Samples and coefficients -/

theorem pix_eq (m : Memory) (a : Int) : pix m a = ((m.read a.toNat).toNat : Int) := by
  simp [pix, memRead]

theorem pix_range (m : Memory) (a : Int) : 0 ≤ pix m a ∧ pix m a ≤ 255 := by
  rw [pix_eq]
  have := (m.read a.toNat).isLt
  omega

theorem memRead_two (m : Memory) (a : Int) :
    memRead m a 2 = (m.read a.toNat).toNat + 256 * (m.read (a + 1).toNat).toNat := by
  simp [memRead]

theorem sext16_range (v : Int) : -32768 ≤ sext 16 v ∧ sext 16 v ≤ 32767 := by
  have h1 := BitVec.toInt_lt (x := BitVec.ofInt 16 v)
  have h2 := BitVec.le_toInt (x := BitVec.ofInt 16 v)
  unfold sext
  omega

theorem coef_range (m : Memory) (a : Int) : -32768 ≤ coef m a ∧ coef m a ≤ 32767 := sext16_range _

/-- A coefficient depends on its two bytes alone. -/
theorem coef_congr {m m' : Memory} {a : Int} (h0 : m.read a.toNat = m'.read a.toNat)
    (h1 : m.read (a + 1).toNat = m'.read (a + 1).toNat) : coef m a = coef m' a := by
  simp only [coef, memRead_two, h0, h1]

theorem pix_congr {m m' : Memory} {a : Int} (h : m.read a.toNat = m'.read a.toNat) : pix m a = pix m' a := by
  rw [pix_eq, pix_eq, h]

/-- The byte of a number is its low 8 bits. -/
theorem toNat_ofInt8 (v : Int) : ((BitVec.ofInt 8 v).toNat : Int) = v % 256 := by
  rw [BitVec.toNat_ofInt]
  omega

/-- A number stored at an address and read back from it, in two bytes. -/
theorem memWriteStores_two (a v : Int) :
    memWriteStores a 2 v = [(a, BitVec.ofInt 8 v), (a + 1, BitVec.ofInt 8 (v / 256))] := rfl

/-- Two bytes holding the low 16 bits of `v` read as the coefficient `trunc16 v` (20_memory R26). -/
theorem coef_of_bytes (m : Memory) (a v : Int) (h0 : m.read a.toNat = BitVec.ofInt 8 v)
    (h1 : m.read (a + 1).toNat = BitVec.ofInt 8 (v / 256)) : coef m a = trunc16 v := by
  have e : ((memRead m a 2 : Nat) : Int) = v % 65536 := by
    rw [memRead_two, h0, h1]
    push_cast
    rw [toNat_ofInt8, toNat_ofInt8]
    omega
  unfold coef trunc16 sext
  rw [e]
  congr 1
  apply BitVec.eq_of_toNat_eq
  rw [BitVec.toNat_ofInt, BitVec.toNat_ofInt]
  omega

end Sys2Proof.Machine
end

