-- ==== Sys2Proof/Laws/State.lean ====
section
/-! SUPPORT. What each update of the state leaves in each field; every lemma is true by unfolding the
update. -/

namespace Sys2Proof.Machine

@[simp] theorem complete_mem (s : State) : (complete s).mem = s.mem := rfl
@[simp] theorem complete_latch (s : State) : (complete s).latch = none := rfl
@[simp] theorem complete_inbox (s : State) : (complete s).inbox = s.inbox := rfl
@[simp] theorem complete_platform (s : State) : (complete s).platform = s.platform := rfl
@[simp] theorem complete_completions (s : State) : (complete s).completions = s.completions + 1 := rfl
@[simp] theorem complete_draws (s : State) : (complete s).draws = s.draws := rfl

@[simp] theorem hostAccess_latch (x : Access) (s : State) : (hostAccess x s).latch = s.latch := rfl
@[simp] theorem hostAccess_inbox (x : Access) (s : State) : (hostAccess x s).inbox = s.inbox := rfl
@[simp] theorem hostAccess_platform (x : Access) (s : State) : (hostAccess x s).platform = s.platform := rfl
@[simp] theorem hostAccess_completions (x : Access) (s : State) :
    (hostAccess x s).completions = s.completions := rfl
@[simp] theorem hostAccess_draws (x : Access) (s : State) : (hostAccess x s).draws = s.draws := rfl
@[simp] theorem hostAccess_mem (x : Access) (s : State) :
    (hostAccess x s).mem = s.mem.writeAll (x.writes.map (fun w => (zext w.1, w.2))) := rfl

@[simp] theorem withFetchWord_mem (s : State) (n w : Nat) : (s.withFetchWord n w).mem = s.mem := rfl
@[simp] theorem withFetchWord_latch (s : State) (n w : Nat) :
    (s.withFetchWord n w).latch = some (BitVec.ofNat 192 (w % 2 ^ n)) := rfl
@[simp] theorem withFetchWord_inbox (s : State) (n w : Nat) :
    (s.withFetchWord n w).inbox = .await :: s.inbox := rfl
@[simp] theorem withFetchWord_platform (s : State) (n w : Nat) :
    (s.withFetchWord n w).platform = s.platform := rfl
@[simp] theorem withFetchWord_completions (s : State) (n w : Nat) :
    (s.withFetchWord n w).completions = s.completions := rfl
@[simp] theorem withFetchWord_draws (s : State) (n w : Nat) : (s.withFetchWord n w).draws = s.draws := rfl

@[simp] theorem reset_mem : State.reset.mem = [] := rfl
@[simp] theorem reset_latch : State.reset.latch = none := rfl
@[simp] theorem reset_inbox : State.reset.inbox = [] := rfl
@[simp] theorem reset_platform : State.reset.platform = Platform.launch := rfl
@[simp] theorem reset_completions : State.reset.completions = 0 := rfl
@[simp] theorem reset_draws : State.reset.draws = 0 := rfl

end Sys2Proof.Machine
end

