-- ==== Sys2Proof/Laws/Command.lean ====
section
/-! SUPPORT. What running, contending and abandoning a command can answer: said once, cited by every proof
about a step (60_exceptions R147). -/

namespace Sys2Proof.Machine

/-- The clash of coefficients read and bytes written, in words. -/
theorem planClash_eq_false (p : Plan) : planClash p = false ↔ ∀ a ∈ p.coefReads, a ∉ p.writes := by
  simp [planClash]

theorem inRange_eq_true (a : Int) : inRange a = true ↔ 0 ≤ a ∧ a < 2 ^ 32 := by
  simp [inRange]

/-- Check (2) fails: BPS below 8. -/
theorem verdict_badParameter {p : Plan} {pf : Platform} (hb : p.usesBps = true ∧ pf.bps < 8) :
    verdict p pf = some .badParameter := by
  simp [verdict, hb.1, hb.2]

/-- The checks after BPS. -/
theorem verdict_of_goodParameter {p : Plan} {pf : Platform} (hb : p.usesBps = true → 8 ≤ pf.bps) :
    (p.usesBps && decide (pf.bps < 8)) = false := by
  by_cases hu : p.usesBps = true
  · have := hb hu
    simp [hu]; omega
  · simp [hu]

/-- Check (3) fails: the first odd coefficient address is recorded. -/
theorem verdict_misalignedCoef {p : Plan} {pf : Platform} {a : Int} (hb : p.usesBps = true → 8 ≤ pf.bps)
    (ha : p.coefBases.find? (fun a => a % 2 != 0) = some a) :
    verdict p pf = some (.misalignedCoef a) := by
  simp [verdict, verdict_of_goodParameter hb, ha]

theorem find_odd_eq_none {as : List Int} (h : ∀ a ∈ as, a % 2 = 0) :
    as.find? (fun a => a % 2 != 0) = none := by
  rw [List.find?_eq_none]
  intro a ha
  simp [h a ha]

/-- Check (4) fails: the first address out of reach is recorded. -/
theorem verdict_addressRange {p : Plan} {pf : Platform} {a : Int} (hb : p.usesBps = true → 8 ≤ pf.bps)
    (hm : ∀ a ∈ p.coefBases, a % 2 = 0)
    (ha : (planExtent p).find? (fun a => !(inRange a && admits pf a)) = some a) :
    verdict p pf = some (.addressRange a) := by
  simp only [verdict, verdict_of_goodParameter hb, find_odd_eq_none hm, ha, Bool.false_eq_true, if_false]

theorem find_outside_eq_none {as : List Int} {pf : Platform}
    (h : ∀ a ∈ as, 0 ≤ a ∧ a < 2 ^ 32 ∧ admits pf a = true) :
    as.find? (fun a => !(inRange a && admits pf a)) = none := by
  rw [List.find?_eq_none]
  intro a ha
  simp [(inRange_eq_true a).mpr ⟨(h a ha).1, (h a ha).2.1⟩, (h a ha).2.2]

/-- Check (5) fails: sample positions or footprints overlap. -/
theorem verdict_overlapping {p : Plan} {pf : Platform} (hb : p.usesBps = true → 8 ≤ pf.bps)
    (hm : ∀ a ∈ p.coefBases, a % 2 = 0)
    (hx : ∀ a ∈ planExtent p, 0 ≤ a ∧ a < 2 ^ 32 ∧ admits pf a = true)
    (hs : ¬(p.spaced = true ∧ ∀ a ∈ p.coefReads, a ∉ p.writes)) :
    verdict p pf = some .overlappingFootprint := by
  have : (!p.spaced || planClash p) = true := by
    by_contra hc
    simp only [Bool.or_eq_true, not_or, Bool.not_eq_true] at hc
    exact hs ⟨by simpa using hc.1, (planClash_eq_false p).mp hc.2⟩
  simp only [verdict, verdict_of_goodParameter hb, find_odd_eq_none hm, find_outside_eq_none hx, this,
    Bool.false_eq_true, if_false, if_true]

/-- Checks (2) to (5) hold: what check (6) answers. -/
theorem verdict_of_disjoint {p : Plan} {pf : Platform} (hb : p.usesBps = true → 8 ≤ pf.bps)
    (hm : ∀ a ∈ p.coefBases, a % 2 = 0)
    (hx : ∀ a ∈ planExtent p, 0 ≤ a ∧ a < 2 ^ 32 ∧ admits pf a = true)
    (hs : p.spaced = true ∧ ∀ a ∈ p.coefReads, a ∉ p.writes) :
    verdict p pf = if (planFootprint p).any (fun a => isDevice pf a) then some .notMemory else none := by
  have : (!p.spaced || planClash p) = false := by
    simp [hs.1, (planClash_eq_false p).mpr hs.2]
  simp only [verdict, verdict_of_goodParameter hb, find_odd_eq_none hm, find_outside_eq_none hx, this,
    Bool.false_eq_true, if_false]

/-- Check (6) fails: the footprint meets a device. -/
theorem verdict_notMemory {p : Plan} {pf : Platform} (hb : p.usesBps = true → 8 ≤ pf.bps)
    (hm : ∀ a ∈ p.coefBases, a % 2 = 0)
    (hx : ∀ a ∈ planExtent p, 0 ≤ a ∧ a < 2 ^ 32 ∧ admits pf a = true)
    (hs : p.spaced = true ∧ ∀ a ∈ p.coefReads, a ∉ p.writes)
    (hd : ∃ a ∈ planFootprint p, isDevice pf a = true) :
    verdict p pf = some .notMemory := by
  rw [verdict_of_disjoint hb hm hx hs, if_pos (List.any_eq_true.mpr hd)]

/-- The checks pass exactly when every precondition holds. -/
theorem verdict_eq_none_iff (p : Plan) (pf : Platform) :
    verdict p pf = none ↔
      (p.usesBps = true → 8 ≤ pf.bps) ∧ (∀ a ∈ p.coefBases, a % 2 = 0) ∧
      (∀ a ∈ planExtent p, 0 ≤ a ∧ a < 2 ^ 32 ∧ admits pf a = true) ∧
      (p.spaced = true ∧ ∀ a ∈ p.coefReads, a ∉ p.writes) ∧
      (∀ a ∈ planFootprint p, isDevice pf a = false) := by
  constructor
  · intro h
    have hb : p.usesBps = true → 8 ≤ pf.bps := by
      intro hu
      by_contra hlt
      rw [verdict_badParameter ⟨hu, by omega⟩] at h
      cases h
    have hm : ∀ a ∈ p.coefBases, a % 2 = 0 := by
      cases hf : p.coefBases.find? (fun a => a % 2 != 0) with
      | some a => rw [verdict_misalignedCoef hb hf] at h; cases h
      | none => intro a ha; simpa using List.find?_eq_none.mp hf a ha
    have hx : ∀ a ∈ planExtent p, 0 ≤ a ∧ a < 2 ^ 32 ∧ admits pf a = true := by
      cases hf : (planExtent p).find? (fun a => !(inRange a && admits pf a)) with
      | some a => rw [verdict_addressRange hb hm hf] at h; cases h
      | none =>
        intro a ha
        have := List.find?_eq_none.mp hf a ha
        simp only [Bool.not_eq_true, Bool.not_eq_false', Bool.and_eq_true, inRange_eq_true] at this
        exact ⟨this.1.1, this.1.2, this.2⟩
    have hs : p.spaced = true ∧ ∀ a ∈ p.coefReads, a ∉ p.writes := by
      by_contra hc
      rw [verdict_overlapping hb hm hx hc] at h
      cases h
    refine ⟨hb, hm, hx, hs, fun a ha => ?_⟩
    by_contra hd
    rw [verdict_notMemory hb hm hx hs ⟨a, ha, by simpa using hd⟩] at h
    cases h
  · rintro ⟨hb, hm, hx, hs, hd⟩
    have : (planFootprint p).any (fun a => isDevice pf a) = false := by
      rw [List.any_eq_false]
      intro a ha
      simp [hd a ha]
    rw [verdict_of_disjoint hb hm hx hs, this]
    rfl

@[simp] theorem runUnits_nil (m : Memory) : runUnits m [] = m := rfl

/-- Units run one after another (20_memory R40). -/
@[simp] theorem runUnits_cons (m : Memory) (u : Memory → List Store) (us : List (Memory → List Store)) :
    runUnits m (u :: us) = runUnits (runUnit m u) us := rfl

/-- A command answers a next state exactly when its checks pass, and that state is all of its units and
completion. -/
theorem runCommand_next_iff (p : Plan) (s t : State) :
    runCommand p s = .next t ↔
      verdict p s.platform = none ∧ t = complete { s with mem := runUnits s.mem p.units } := by
  unfold runCommand
  cases verdict p s.platform with
  | some r => simp
  | none => simp [eq_comm]

theorem runCommand_of_verdict_none {p : Plan} {s : State} (h : verdict p s.platform = none) :
    runCommand p s = .next (complete { s with mem := runUnits s.mem p.units }) := by
  simp [runCommand, h]

theorem runCommand_of_verdict_some {p : Plan} {s : State} {r : Refusal} (h : verdict p s.platform = some r) :
    runCommand p s = .refused r := by
  simp [runCommand, h]

/-- A command never faults. -/
theorem runCommand_not_fault (p : Plan) (s : State) (f : Fault) : runCommand p s ≠ .fault f := by
  unfold runCommand
  cases verdict p s.platform <;> simp

theorem contend_next_iff (p : Plan) (x : Access) (s t : State) :
    contend p x s = .next t ↔ verdict p s.platform = none ∧ races p x = false ∧ t = hostAccess x s := by
  unfold contend
  cases verdict p s.platform with
  | some r => simp
  | none => cases races p x <;> simp [eq_comm]

theorem abandon_next_iff (p : Plan) (s t : State) :
    abandon p s = .next t ↔ verdict p s.platform = none ∧
      t = { s with mem := s.mem.writeAll (abandonedStores p s), latch := none, draws := s.draws + 1 } := by
  unfold abandon
  cases verdict p s.platform with
  | some r => simp
  | none => simp [eq_comm]

/-- Every command is run by the one shared operation, from its plan. -/
theorem exec_eq_runCommand (i : Instr) (s : State) : exec i s = runCommand (planOf i s.platform) s := by
  cases i <;> rfl

/-- What one step can do when it answers a next state: the PRE is idle and takes an input, or a command
in the latch runs, shares memory with an access that touches none of its footprints, or is abandoned. -/
theorem step_next_cases {s t : State} (h : step s = .next t) :
    (s.latch = none ∧ idleStep s = .next t) ∨
    (∃ d i, s.latch = some d ∧ decode d = .ok i ∧ exec i s = .next t) ∨
    (∃ d i x rest, s.latch = some d ∧ decode d = .ok i ∧ s.inbox = .access x :: rest ∧
      contend (planOf i s.platform) x { s with inbox := rest } = .next t) ∨
    (∃ d i rest, s.latch = some d ∧ decode d = .ok i ∧ s.inbox = .reset :: rest ∧
      abandon (planOf i s.platform) { s with inbox := rest } = .next t) := by
  unfold step engineStep at h
  split at h
  · exact Or.inl ⟨by assumption, h⟩
  · split at h
    · cases h
    · unfold busyStep at h
      split at h
      · exact Or.inr (Or.inr (Or.inl ⟨_, _, _, _, by assumption, by assumption, by assumption, h⟩))
      · exact Or.inr (Or.inr (Or.inr ⟨_, _, _, by assumption, by assumption, by assumption, h⟩))
      · exact Or.inr (Or.inl ⟨_, _, by assumption, by assumption, h⟩)

end Sys2Proof.Machine
end

