-- ==== Sys2Proof/Laws/Decode.lean ====
section
/-! SUPPORT. What the fields of a packed descriptor are, and when a row selects a descriptor
(30_encoding R46, R50). -/

namespace Sys2Proof

section
variable (op : Byte) (two : Bool) (a b s : Word) (e i h : Half)

theorem pack_word0 : (pack op two a b s e i h).word 0 = (0 : BitVec 23) ++ BitVec.ofBool two ++ op := by
  apply BitVec.eq_of_getLsbD_eq
  intro k hk
  simp only [pack, Descriptor.word, BitVec.getLsbD_extractLsb', BitVec.getLsbD_append]
  grind

theorem pack_two : (pack op two a b s e i h).two = two := by
  simp only [pack, Descriptor.two, BitVec.getLsbD_append]
  simp

@[simp] theorem pack_a : (pack op two a b s e i h).a = a := by
  apply BitVec.eq_of_getLsbD_eq
  intro k hk
  simp only [pack, Descriptor.a, BitVec.getLsbD_extractLsb', BitVec.getLsbD_append]
  grind

@[simp] theorem pack_b : (pack op two a b s e i h).b = b := by
  apply BitVec.eq_of_getLsbD_eq
  intro k hk
  simp only [pack, Descriptor.b, BitVec.getLsbD_extractLsb', BitVec.getLsbD_append]
  grind

@[simp] theorem pack_stride : (pack op two a b s e i h).stride = s := by
  apply BitVec.eq_of_getLsbD_eq
  intro k hk
  simp only [pack, Descriptor.stride, BitVec.getLsbD_extractLsb', BitVec.getLsbD_append]
  grind

@[simp] theorem pack_elim : (pack op two a b s e i h).elim = e := by
  apply BitVec.eq_of_getLsbD_eq
  intro k hk
  simp only [pack, Descriptor.elim, BitVec.getLsbD_extractLsb', BitVec.getLsbD_append]
  grind

@[simp] theorem pack_ilim : (pack op two a b s e i h).ilim = i := by
  apply BitVec.eq_of_getLsbD_eq
  intro k hk
  simp only [pack, Descriptor.ilim, BitVec.getLsbD_extractLsb', BitVec.getLsbD_append]
  grind

@[simp] theorem pack_hevt : (pack op two a b s e i h).hevt = h := by
  apply BitVec.eq_of_getLsbD_eq
  intro k hk
  simp only [pack, Descriptor.hevt, BitVec.getLsbD_extractLsb', BitVec.getLsbD_append]
  grind

end

/-- The row whose command an encoding is. -/
def rowOf : Instr → OpRow
  | .itx _ _ _ => rowItx
  | .iwht _ _ => rowIwht
  | .itxdc _ _ => rowItxdc
  | .itxac3 _ _ => rowItxac3
  | .fov _ _ _ _ _ => rowFov
  | .foh _ _ _ _ _ => rowFoh
  | .fiv _ _ _ _ _ => rowFiv
  | .fih _ _ _ _ _ => rowFih

/-- Whether a row selects a descriptor depends on its W0 alone (30_encoding R50). -/
theorem selects_eq (r : OpRow) (d : Descriptor) : r.selects d = (d.word 0 &&& r.maskW0 == r.matchW0) := rfl

/-- The rows selected by a descriptor, from its W0. -/
theorem filter_selects (d : Descriptor) (w : Word) (h : d.word 0 = w) :
    opcodeTable.filter (fun r => r.selects d) = opcodeTable.filter (fun r => w &&& r.maskW0 == r.matchW0) := by
  simp only [selects_eq, h]

/-- A descriptor that exactly one row selects decodes to that row's command (30_encoding R51). -/
theorem decode_of_filter {d : Descriptor} {r : OpRow}
    (h : opcodeTable.filter (fun r => r.selects d) = [r]) : decode d = .ok (r.operands d) := by
  simp only [decode, h]

end Sys2Proof
end

