-- ==== Sys2Proof/Laws/Layout.lean ====
section
/-! SUPPORT. Addresses and footprints: which addresses the lists of 20_memory R34 hold, that distinct sample
positions have distinct addresses (R35), that every unit stores inside its command's write footprint and
depends on its read footprint alone. -/

namespace Sys2Proof.Machine

/-! ## Membership -/

theorem mem_span (a x : Int) (n : Nat) : x ∈ span a n ↔ a ≤ x ∧ x < a + n := by
  simp only [span, List.mem_map, List.mem_range]
  constructor
  · rintro ⟨k, hk, rfl⟩
    omega
  · rintro ⟨h1, h2⟩
    exact ⟨(x - a).toNat, by omega, by omega⟩

theorem mem_blkAddrs (bps : Nat) (b p : Int) :
    p ∈ blkAddrs bps b ↔ ∃ y, y < 4 ∧ ∃ x, x < 4 ∧ pixAddr bps b x y = p := by
  simp [blkAddrs, List.mem_flatMap]

theorem mem_edgeAddrs (e0 st ln p : Int) (taps : List Int) :
    p ∈ edgeAddrs e0 st ln taps ↔ ∃ l, l < 16 ∧ ∃ k ∈ taps, tapAddr e0 st ln l k = p := by
  simp [edgeAddrs, List.mem_flatMap]

theorem kernelTaps_allTaps (k : EdgeKernel) : ∀ t ∈ kernelTaps k, t ∈ allTaps := by
  cases k <;> simp [kernelTaps, allTaps]

theorem allTaps_range {t : Int} (h : t ∈ allTaps) : -4 ≤ t ∧ t ≤ 3 := by
  simp [allTaps] at h
  omega

theorem edgeAddrs_kernelTaps_subset (e0 st ln : Int) (k : EdgeKernel) :
    ∀ p ∈ edgeAddrs e0 st ln (kernelTaps k), p ∈ edgeAddrs e0 st ln allTaps := by
  intro p hp
  obtain ⟨l, hl, t, ht, rfl⟩ := (mem_edgeAddrs _ _ _ _ _).mp hp
  exact (mem_edgeAddrs _ _ _ _ _).mpr ⟨l, hl, t, kernelTaps_allTaps k t ht, rfl⟩

/-! ## Distinct positions, distinct addresses (20_memory R35 (a)) -/

/-- Two numbers below `n` added to multiples of a pitch of at least `n`. -/
theorem pitch_inj {s x y r q n : Int} (hs : n ≤ s) (hx : 0 ≤ x ∧ x < n) (hy : 0 ≤ y ∧ y < n)
    (h : x + r * s = y + q * s) : x = y ∧ r = q := by
  have hrq : r = q := by
    by_contra hne
    rcases lt_or_gt_of_ne hne with hlt | hgt
    · nlinarith
    · nlinarith
  subst hrq
  exact ⟨by omega, rfl⟩

theorem pixAddr_inj {bps : Nat} {b : Int} {x y x' y' : Nat} (hb : 4 ≤ bps) (hx : x < 4) (hx' : x' < 4)
    (h : pixAddr bps b x y = pixAddr bps b x' y') : x = x' ∧ y = y' := by
  unfold pixAddr at h
  have := pitch_inj (s := bps) (x := x) (y := x') (r := y) (q := y') (n := 4) (by omega) (by omega)
    (by omega) (by linarith)
  omega

/-- Addresses of the 16 positions along each row, rows `S` apart: FOV and FIV. -/
theorem tapAddr_inj_down {e0 s : Int} {l l' : Nat} {k k' : Int} (hs : 16 ≤ s) (hl : l < 16) (hl' : l' < 16)
    (h : tapAddr e0 s 1 l k = tapAddr e0 s 1 l' k') : l = l' ∧ k = k' := by
  unfold tapAddr at h
  have := pitch_inj (s := s) (x := l) (y := l') (r := k) (q := k') (n := 16) hs (by omega) (by omega)
    (by linarith)
  omega

/-- Addresses of the eight taps along each row, lanes `S` apart: FOH and each edge of FIH. -/
theorem tapAddr_inj_across {e0 s : Int} {l l' : Nat} {k k' : Int} (hs : 8 ≤ s) (hk : -4 ≤ k ∧ k ≤ 3)
    (hk' : -4 ≤ k' ∧ k' ≤ 3) (h : tapAddr e0 1 s l k = tapAddr e0 1 s l' k') : l = l' ∧ k = k' := by
  unfold tapAddr at h
  have := pitch_inj (s := s) (x := k + 4) (y := k' + 4) (r := l) (q := l') (n := 8) hs (by omega) (by omega)
    (by linarith)
  omega

/-- The sample positions of an edge have distinct addresses. -/
def EdgeSpaced (e0 st ln : Int) : Prop :=
  ∀ l l' : Nat, ∀ k k' : Int, l < 16 → l' < 16 → -4 ≤ k ∧ k ≤ 3 → -4 ≤ k' ∧ k' ≤ 3 →
    tapAddr e0 st ln l k = tapAddr e0 st ln l' k' → l = l' ∧ k = k'

theorem edgeSpaced_down {e0 s : Int} (hs : 16 ≤ s) : EdgeSpaced e0 s 1 :=
  fun _ _ _ _ hl hl' _ _ h => tapAddr_inj_down hs hl hl' h

theorem edgeSpaced_across {e0 s : Int} (hs : 8 ≤ s) : EdgeSpaced e0 1 s :=
  fun _ _ _ _ _ _ hk hk' h => tapAddr_inj_across hs hk hk' h

/-! ## Units store inside the write footprint -/

theorem mergeStores_addr {bps : Nat} {b : Int} {r : Nat → Nat → Int} {m : Memory} {w : Store}
    (h : w ∈ mergeStores bps b r m) : w.1 ∈ blkAddrs bps b := by
  simp only [mergeStores, List.mem_flatMap, List.mem_map, List.mem_range] at h
  obtain ⟨y, hy, x, hx, rfl⟩ := h
  exact (mem_blkAddrs _ _ _).mpr ⟨y, hy, x, hx, rfl⟩

theorem iwhtStores_addr {a b : Int} {m : Memory} {w : Store} (h : w ∈ iwhtStores a b m) :
    w.1 ∈ (List.range 16).flatMap (fun i => span (outAddr b i) 2) := by
  simp only [iwhtStores, List.mem_flatMap, memWriteStores_two, List.mem_cons, List.not_mem_nil, or_false]
    at h ⊢
  obtain ⟨i, hi, rfl | rfl⟩ := h
  · exact ⟨i, hi, (mem_span _ _ _).mpr (by simp)⟩
  · exact ⟨i, hi, (mem_span _ _ _).mpr (by simp)⟩

theorem filterEdge_addr {e0 st ln : Int} {k : EdgeKernel} {lim : Limits} {m : Memory} {w : Store}
    (h : w ∈ filterEdge e0 st ln k lim m) : w.1 ∈ edgeAddrs e0 st ln (kernelTaps k) := by
  simp only [filterEdge, List.mem_flatMap, List.mem_map, List.mem_range] at h
  obtain ⟨l, hl, t, ht, rfl⟩ := h
  exact (mem_edgeAddrs _ _ _ _ _).mpr ⟨l, hl, t, ht, rfl⟩

theorem edgePlan_within {e0s : List Int} {st ln : Int} {k : EdgeKernel} {lim : Limits} {sp : Bool} :
    ∀ u ∈ (edgePlan e0s st ln k lim sp).units, ∀ m, ∀ w ∈ u m, w.1 ∈ (edgePlan e0s st ln k lim sp).writes := by
  intro u hu m w hw
  simp only [edgePlan, List.mem_map] at hu
  obtain ⟨e0, he0, rfl⟩ := hu
  exact List.mem_flatMap.mpr ⟨e0, he0, filterEdge_addr hw⟩

/-- Every store of every unit of every command is in the command's write footprint (20_memory R34). -/
theorem planOf_within (i : Instr) (pf : Platform) :
    ∀ u ∈ (planOf i pf).units, ∀ m, ∀ w ∈ u m, w.1 ∈ (planOf i pf).writes := by
  cases i with
  | itx two a b =>
    intro u hu m w hw
    cases two <;> simp only [planOf, itxPlan, if_true, Bool.false_eq_true, if_false, List.mem_cons,
      List.not_mem_nil, or_false, List.mem_append] at hu ⊢
    · subst hu; exact mergeStores_addr hw
    · rcases hu with rfl | rfl
      · exact Or.inl (mergeStores_addr hw)
      · exact Or.inr (mergeStores_addr hw)
  | iwht a b =>
    intro u hu m w hw
    simp only [planOf, iwhtPlan, List.mem_cons, List.not_mem_nil, or_false] at hu
    subst hu; exact iwhtStores_addr hw
  | itxdc a b =>
    intro u hu m w hw
    simp only [planOf, itxdcPlan, List.mem_cons, List.not_mem_nil, or_false] at hu
    subst hu; exact mergeStores_addr hw
  | itxac3 a b =>
    intro u hu m w hw
    simp only [planOf, itxac3Plan, List.mem_cons, List.not_mem_nil, or_false] at hu
    subst hu; exact mergeStores_addr hw
  | fov a s e i h => exact edgePlan_within
  | foh a s e i h => exact edgePlan_within
  | fiv a s e i h => exact edgePlan_within
  | fih a s e i h => exact edgePlan_within

/-- Units that store inside a set leave every byte outside it alone. -/
theorem runUnits_read_other (us : List (Memory → List Store)) (ws : List Int) (m : Memory) (a : Nat)
    (hus : ∀ u ∈ us, ∀ m, ∀ w ∈ u m, w.1 ∈ ws) (hws : ∀ x ∈ ws, 0 ≤ x) (ha : (a : Int) ∉ ws) :
    (runUnits m us).read a = m.read a := by
  induction us generalizing m with
  | nil => rfl
  | cons u us ih =>
    rw [runUnits, List.foldl_cons, ← runUnits, ih _ (fun u' hu' => hus u' (by simp [hu'])), runUnit,
      Memory.read_writeAll_other]
    intro w hw e
    have hin := hus u (by simp) m w hw
    have := hws _ hin
    exact ha (by rwa [show (a : Int) = w.1 by omega])

/-- Units that store inside the address space keep the canonical form. -/
theorem runUnits_wf (us : List (Memory → List Store)) (ws : List Int) (m : Memory) (hm : m.wf = true)
    (hus : ∀ u ∈ us, ∀ m, ∀ w ∈ u m, w.1 ∈ ws) (hws : ∀ x ∈ ws, 0 ≤ x ∧ x < 2 ^ 32) :
    (runUnits m us).wf = true := by
  induction us generalizing m with
  | nil => exact hm
  | cons u us ih =>
    rw [runUnits, List.foldl_cons, ← runUnits]
    refine ih _ (Memory.wf_writeAll _ _ hm ?_) (fun u' hu' => hus u' (by simp [hu']))
    intro w hw
    have := hws _ (hus u (by simp) m w hw)
    omega

/-! ## The sample a byte holds -/

theorem sampleByte_toNat {v : Int} (h : 0 ≤ v ∧ v ≤ 255) : ((sampleByte v).toNat : Int) = v := by
  rw [sampleByte, toNat_ofInt8]
  omega

theorem pix_of_byte {m : Memory} {a v : Int} (h : m.read a.toNat = sampleByte v) (hv : 0 ≤ v ∧ v ≤ 255) :
    pix m a = v := by
  rw [pix_eq, h, sampleByte_toNat hv]

theorem clamp8u_range (v : Int) : 0 ≤ clamp8u v ∧ clamp8u v ≤ 255 := by
  unfold clamp8u
  omega

theorem mergeSample_range (s r : Int) : 0 ≤ mergeSample s r ∧ mergeSample s r ≤ 255 := clamp8u_range _

/-- What merging a residual into a region leaves at each of its samples (41 R88). -/
theorem pix_mergeStores {bps : Nat} {b : Int} {r : Nat → Nat → Int} {m : Memory} {x y : Nat}
    (hb : 4 ≤ bps) (hpos : ∀ p ∈ blkAddrs bps b, 0 ≤ p) (hx : x < 4) (hy : y < 4) :
    pix (runUnit m (mergeStores bps b r)) (pixAddr bps b x y) =
      mergeSample (pix m (pixAddr bps b x y)) (r y x) := by
  refine pix_of_byte ?_ (mergeSample_range _ _)
  rw [runUnit]
  apply Memory.read_writeAll_same
  · refine ⟨(pixAddr bps b x y, sampleByte (mergeSample (pix m (pixAddr bps b x y)) (r y x))), ?_, rfl⟩
    simp only [mergeStores, List.mem_flatMap, List.mem_map, List.mem_range]
    exact ⟨y, hy, x, hx, rfl⟩
  · intro w hw e
    have hw0 := hpos _ (mergeStores_addr hw)
    have h0 := hpos _ ((mem_blkAddrs bps b _).mpr ⟨y, hy, x, hx, rfl⟩)
    simp only [mergeStores, List.mem_flatMap, List.mem_map, List.mem_range] at hw
    obtain ⟨y', hy', x', hx', rfl⟩ := hw
    have he : pixAddr bps b x' y' = pixAddr bps b x y := by simp only at e hw0; omega
    obtain ⟨rfl, rfl⟩ := pixAddr_inj hb hx' hx he
    rfl

end Sys2Proof.Machine
end

