-- ==== Sys2Proof/Laws/Edge.lean ====
section
/-! SUPPORT. One filtered edge: the samples a kernel returns are samples, and what filtering an edge leaves in
memory (42_deblock R117, R120, R123). -/

namespace Sys2Proof.Machine

open Sys2Proof.Safety

/-- The samples of a lane read from memory are in [0, 255]. -/
theorem readLane_range (m : Memory) (e0 st ln : Int) (l : Nat) : InSampleRange (readLane m e0 st ln l) :=
  ⟨pix_range _ _, pix_range _ _, pix_range _ _, pix_range _ _, pix_range _ _, pix_range _ _, pix_range _ _,
    pix_range _ _⟩

/-- A value in the signed domain, saturated and converted back, is a sample. -/
theorem unbias_clamp8s_range (v : Int) : 0 ≤ unbias (clamp8s v) ∧ unbias (clamp8s v) ≤ 255 := by
  unfold unbias clamp8s
  omega

theorem kernelF4_range {lim : Limits} {n : Lane} (h : InSampleRange n) : InSampleRange (kernelF4 lim n) := by
  obtain ⟨h1, h2, h3, h4, h5, h6, h7, h8⟩ := h
  refine ⟨h1, h2, ?_, unbias_clamp8s_range _, unbias_clamp8s_range _, ?_, h7, h8⟩
  · simp only [kernelF4]
    split
    · exact h3
    · exact unbias_clamp8s_range _
  · simp only [kernelF4]
    split
    · exact h6
    · exact unbias_clamp8s_range _

theorem kernelF6_range {lim : Limits} {n : Lane} (h : InSampleRange n) : InSampleRange (kernelF6 lim n) :=
  ⟨h.1, unbias_clamp8s_range _, unbias_clamp8s_range _, unbias_clamp8s_range _, unbias_clamp8s_range _,
    unbias_clamp8s_range _, unbias_clamp8s_range _, h.2.2.2.2.2.2.2⟩

theorem applyKernel_range {k : EdgeKernel} {lim : Limits} {n : Lane} (h : InSampleRange n) :
    InSampleRange (applyKernel k lim n) := by
  cases k
  · exact kernelF4_range h
  · exact kernelF6_range h

theorem laneTap_range {n : Lane} (h : InSampleRange n) (t : Int) : 0 ≤ laneTap n t ∧ laneTap n t ≤ 255 := by
  obtain ⟨h1, h2, h3, h4, h5, h6, h7, h8⟩ := h
  unfold laneTap
  split_ifs <;> assumption

/-- Filtering an edge whose positions are apart, at addresses that are not negative, leaves the edge
filtered (42_deblock R123). -/
theorem filterEdge_filters {m : Memory} {e0 st ln : Int} {k : EdgeKernel} {lim : Limits}
    (hsp : EdgeSpaced e0 st ln) (hpos : ∀ p ∈ edgeAddrs e0 st ln allTaps, 0 ≤ p) :
    EdgeFiltered m (runUnit m (filterEdge e0 st ln k lim)) e0 st ln k lim := by
  have hposk : ∀ p ∈ edgeAddrs e0 st ln (kernelTaps k), 0 ≤ p :=
    fun p hp => hpos p (edgeAddrs_kernelTaps_subset _ _ _ _ p hp)
  constructor
  · intro l hl t ht
    refine pix_of_byte ?_ (laneTap_range (applyKernel_range (readLane_range _ _ _ _ _)) t)
    apply Memory.read_writeAll_same
    · refine ⟨(tapAddr e0 st ln l t, sampleByte (laneTap (applyKernel k lim (readLane m e0 st ln l)) t)), ?_, rfl⟩
      simp only [filterEdge, List.mem_flatMap, List.mem_map, List.mem_range]
      exact ⟨l, hl, t, ht, rfl⟩
    · intro w hw e
      have hw0 := hposk _ (filterEdge_addr hw)
      have h0 := hposk _ ((mem_edgeAddrs e0 st ln _ _).mpr ⟨l, hl, t, ht, rfl⟩)
      simp only [filterEdge, List.mem_flatMap, List.mem_map, List.mem_range] at hw
      obtain ⟨l', hl', t', ht', rfl⟩ := hw
      have he : tapAddr e0 st ln l' t' = tapAddr e0 st ln l t := by simp only at e hw0; omega
      obtain ⟨rfl, rfl⟩ := hsp _ _ _ _ hl' hl (allTaps_range (kernelTaps_allTaps k _ ht'))
        (allTaps_range (kernelTaps_allTaps k _ ht)) he
      rfl
  · intro a ha
    rw [runUnit, Memory.read_writeAll_other]
    intro w hw e
    have hin := filterEdge_addr hw
    have := hposk _ hin
    exact ha (by rwa [show (a : Int) = w.1 by omega])

end Sys2Proof.Machine
end

