-- ==== Sys2Proof/Laws/Footprint.lean ====
section
/-! SUPPORT. The stores of every unit depend on the command's read footprint alone (20_memory R34, 10_state
R22). -/

namespace Sys2Proof.Machine

/-- Two memories hold the same bytes at the given addresses. -/
def AgreeOn (as : List Int) (m m' : Memory) : Prop := ∀ a ∈ as, m.read a.toNat = m'.read a.toNat

theorem AgreeOn.pix {as : List Int} {m m' : Memory} (h : AgreeOn as m m') {a : Int} (ha : a ∈ as) :
    pix m a = pix m' a := pix_congr (h a ha)

theorem AgreeOn.coef {as : List Int} {m m' : Memory} (h : AgreeOn as m m') {a : Int} (ha : a ∈ as)
    (ha1 : a + 1 ∈ as) : coef m a = coef m' a := coef_congr (h a ha) (h _ ha1)

/-- Merging depends on the region's samples and on the residual where it is used. -/
theorem mergeStores_congr {bps : Nat} {b : Int} {r r' : Nat → Nat → Int} {m m' : Memory}
    (hp : AgreeOn (blkAddrs bps b) m m') (hr : ∀ y x, r y x = r' y x) :
    mergeStores bps b r m = mergeStores bps b r' m' := by
  unfold mergeStores
  refine List.flatMap_congr (fun y hy => List.map_congr_left (fun x hx => ?_))
  rw [List.mem_range] at hy hx
  rw [hp.pix ((mem_blkAddrs _ _ _).mpr ⟨y, hy, x, hx, rfl⟩), hr]

theorem residual_congr {c c' : Nat → Int} (h : ∀ i, i < 16 → c i = c' i) (y x : Nat) :
    blockResidual c y x = blockResidual c' y x := by
  have hd : ∀ u, u < 4 → ∀ y, interT c y u = interT c' y u := by
    intro u hu y
    unfold interT passDown
    rw [h u (by omega), h (4 + u) (by omega), h (8 + u) (by omega), h (12 + u) (by omega)]
  unfold blockResidual passAcross
  rw [hd 0 (by omega), hd 1 (by omega), hd 2 (by omega), hd 3 (by omega)]

theorem whtG_congr {w w' : Nat → Int} (h : ∀ i, i < 16 → w i = w' i) (i : Nat) : whtG w i = whtG w' i := by
  have hd : ∀ u, u < 4 → ∀ y, whtT w y u = whtT w' y u := by
    intro u hu y
    unfold whtT whtDown
    rw [h u (by omega), h (4 + u) (by omega), h (8 + u) (by omega), h (12 + u) (by omega)]
  unfold whtG whtO
  rw [hd 0 (by omega), hd 1 (by omega), hd 2 (by omega), hd 3 (by omega)]

/-- A coefficient of a block lies in the block's bytes. -/
theorem blockCoef_congr {a : Int} {m m' : Memory} (h : AgreeOn (span a 32) m m') (i : Nat) (hi : i < 16) :
    blockCoef m a i = blockCoef m' a i := by
  unfold blockCoef coefAddr
  exact h.coef ((mem_span _ _ _).mpr (by omega)) ((mem_span _ _ _).mpr (by omega))

theorem itxBlk_congr {bps : Nat} {a b : Int} {m m' : Memory} (hc : AgreeOn (span a 32) m m')
    (hp : AgreeOn (blkAddrs bps b) m m') : itxBlk bps a b m = itxBlk bps a b m' :=
  mergeStores_congr hp (fun y x => residual_congr (blockCoef_congr hc) y x)

theorem filterEdge_congr {e0 st ln : Int} {k : EdgeKernel} {lim : Limits} {m m' : Memory}
    (h : AgreeOn (edgeAddrs e0 st ln allTaps) m m') :
    filterEdge e0 st ln k lim m = filterEdge e0 st ln k lim m' := by
  unfold filterEdge
  refine List.flatMap_congr (fun l hl => List.map_congr_left (fun t ht => ?_))
  rw [List.mem_range] at hl
  have hs : ∀ t' ∈ allTaps, pix m (tapAddr e0 st ln l t') = pix m' (tapAddr e0 st ln l t') := fun t' ht' =>
    h.pix ((mem_edgeAddrs _ _ _ _ _).mpr ⟨l, hl, t', ht', rfl⟩)
  have : readLane m e0 st ln l = readLane m' e0 st ln l := by
    simp only [allTaps, List.mem_cons, List.not_mem_nil, or_false, forall_eq_or_imp, forall_eq] at hs
    obtain ⟨h1, h2, h3, h4, h5, h6, h7, h8⟩ := hs
    simp only [readLane, h1, h2, h3, h4, h5, h6, h7, h8]
  rw [this]

theorem AgreeOn.mono {as bs : List Int} {m m' : Memory} (h : AgreeOn as m m') (hs : ∀ a ∈ bs, a ∈ as) :
    AgreeOn bs m m' := fun a ha => h a (hs a ha)

/-- Every unit of every command is a function of the command's read footprint. -/
theorem planOf_reads (i : Instr) (pf : Platform) {m m' : Memory} (h : AgreeOn (planReads (planOf i pf)) m m') :
    ∀ u ∈ (planOf i pf).units, u m = u m' := by
  cases i with
  | itx two a b =>
    intro u hu
    cases two <;> simp only [planOf, itxPlan, planReads, if_true, Bool.false_eq_true, if_false, List.mem_cons,
      List.not_mem_nil, or_false] at hu h
    · subst hu
      exact itxBlk_congr (h.mono (by simp +contextual)) (h.mono (by simp +contextual))
    · rcases hu with rfl | rfl
      · refine itxBlk_congr (h.mono ?_) (h.mono (by simp +contextual))
        intro x hx
        rw [mem_span] at hx
        exact List.mem_append_left _ ((mem_span _ _ _).mpr (by omega))
      · refine itxBlk_congr (h.mono ?_) (h.mono (by simp +contextual))
        intro x hx
        rw [mem_span] at hx
        exact List.mem_append_left _ ((mem_span _ _ _).mpr (by omega))
  | iwht a b =>
    intro u hu
    simp only [planOf, iwhtPlan, planReads, List.append_nil, List.mem_cons, List.not_mem_nil, or_false] at hu h
    subst hu
    unfold iwhtStores
    refine List.flatMap_congr (fun i _ => ?_)
    rw [whtG_congr (blockCoef_congr h)]
  | itxdc a b =>
    intro u hu
    simp only [planOf, itxdcPlan, planReads, List.mem_cons, List.not_mem_nil, or_false] at hu h
    subst hu
    refine mergeStores_congr (h.mono (by simp +contextual)) (fun _ _ => ?_)
    rw [h.coef (List.mem_append_left _ ((mem_span _ _ _).mpr (by omega)))
      (List.mem_append_left _ ((mem_span _ _ _).mpr (by omega)))]
  | itxac3 a b =>
    intro u hu
    simp only [planOf, itxac3Plan, planReads, List.mem_cons, List.not_mem_nil, or_false] at hu h
    subst hu
    refine mergeStores_congr (h.mono (by simp +contextual)) (fun y x => residual_congr (fun i _ => ?_) y x)
    have h4 : ∀ x, zext a ≤ x → x < zext a + 4 → x ∈ span (zext a) 4 ++ span (zext a + 8) 2 ++ blkAddrs pf.bps (zext b) :=
      fun x h1 h2 => List.mem_append_left _ (List.mem_append_left _ ((mem_span _ _ _).mpr (by omega)))
    have h8 : ∀ x, zext a + 8 ≤ x → x < zext a + 10 → x ∈ span (zext a) 4 ++ span (zext a + 8) 2 ++ blkAddrs pf.bps (zext b) :=
      fun x h1 h2 => List.mem_append_left _ (List.mem_append_right _ ((mem_span _ _ _).mpr (by omega)))
    unfold ac3Coef
    rw [h.coef (h4 _ (by omega) (by omega)) (h4 _ (by omega) (by omega)),
      h.coef (a := zext a + 2) (h4 _ (by omega) (by omega)) (h4 _ (by omega) (by omega)),
      h.coef (a := zext a + 8) (h8 _ (by omega) (by omega)) (h8 _ (by omega) (by omega))]
  | fov a s e i hv =>
    intro u hu
    simp only [planOf, fovPlan, edgePlan, planReads, List.nil_append, List.map_cons, List.map_nil, List.mem_cons,
      List.not_mem_nil, or_false] at hu h
    subst hu
    exact filterEdge_congr (h.mono (by simp))
  | foh a s e i hv =>
    intro u hu
    simp only [planOf, fohPlan, edgePlan, planReads, List.nil_append, List.map_cons, List.map_nil, List.mem_cons,
      List.not_mem_nil, or_false] at hu h
    subst hu
    exact filterEdge_congr (h.mono (by simp))
  | fiv a s e i hv =>
    intro u hu
    simp only [planOf, fivPlan, edgePlan, planReads, List.nil_append, List.map_cons, List.map_nil, List.mem_cons,
      List.not_mem_nil, or_false] at hu h
    rcases hu with rfl | rfl | rfl <;> exact filterEdge_congr (h.mono (by simp +contextual))
  | fih a s e i hv =>
    intro u hu
    simp only [planOf, fihPlan, edgePlan, planReads, List.nil_append, List.map_cons, List.map_nil, List.mem_cons,
      List.not_mem_nil, or_false] at hu h
    rcases hu with rfl | rfl | rfl <;> exact filterEdge_congr (h.mono (by simp +contextual))

/-! ## Every byte of the write footprint is stored to -/

theorem mergeStores_covers {bps : Nat} {b : Int} {r : Nat → Nat → Int} {m : Memory} {p : Int}
    (h : p ∈ blkAddrs bps b) : ∃ w ∈ mergeStores bps b r m, w.1 = p := by
  obtain ⟨y, hy, x, hx, rfl⟩ := (mem_blkAddrs _ _ _).mp h
  refine ⟨(pixAddr bps b x y, sampleByte (mergeSample (pix m (pixAddr bps b x y)) (r y x))), ?_, rfl⟩
  simp only [mergeStores, List.mem_flatMap, List.mem_map, List.mem_range]
  exact ⟨y, hy, x, hx, rfl⟩

theorem filterEdge_covers {e0 st ln : Int} {k : EdgeKernel} {lim : Limits} {m : Memory} {p : Int}
    (h : p ∈ edgeAddrs e0 st ln (kernelTaps k)) : ∃ w ∈ filterEdge e0 st ln k lim m, w.1 = p := by
  obtain ⟨l, hl, t, ht, rfl⟩ := (mem_edgeAddrs _ _ _ _ _).mp h
  refine ⟨(tapAddr e0 st ln l t, sampleByte (laneTap (applyKernel k lim (readLane m e0 st ln l)) t)), ?_, rfl⟩
  simp only [filterEdge, List.mem_flatMap, List.mem_map, List.mem_range]
  exact ⟨l, hl, t, ht, rfl⟩

theorem iwhtStores_covers {a b : Int} {m : Memory} {p : Int}
    (h : p ∈ (List.range 16).flatMap (fun i => span (outAddr b i) 2)) : ∃ w ∈ iwhtStores a b m, w.1 = p := by
  obtain ⟨i, hi, hp⟩ := List.mem_flatMap.mp h
  rw [mem_span] at hp
  simp only [iwhtStores, List.mem_flatMap, memWriteStores_two]
  by_cases he : p = outAddr b i
  · exact ⟨_, ⟨i, hi, List.mem_cons_self⟩, he.symm⟩
  · exact ⟨_, ⟨i, hi, List.mem_cons_of_mem _ List.mem_cons_self⟩, by simp only; omega⟩

theorem edgePlan_covers {e0s : List Int} {st ln : Int} {k : EdgeKernel} {lim : Limits} {sp : Bool} :
    ∀ p ∈ (edgePlan e0s st ln k lim sp).writes, ∃ u ∈ (edgePlan e0s st ln k lim sp).units, ∀ m, ∃ w ∈ u m,
      w.1 = p := by
  intro p hp
  obtain ⟨e0, he0, hp⟩ := List.mem_flatMap.mp hp
  exact ⟨_, List.mem_map.mpr ⟨e0, he0, rfl⟩, fun m => filterEdge_covers hp⟩

/-- Every byte of the write footprint is stored to by some unit, whatever memory holds (20_memory R34). -/
theorem planOf_covers (i : Instr) (pf : Platform) :
    ∀ p ∈ (planOf i pf).writes, ∃ u ∈ (planOf i pf).units, ∀ m, ∃ w ∈ u m, w.1 = p := by
  cases i with
  | itx two a b =>
    intro p hp
    cases two <;> simp only [planOf, itxPlan, if_true, Bool.false_eq_true, if_false, List.mem_append] at hp ⊢
    · exact ⟨_, List.mem_cons_self, fun m => mergeStores_covers hp⟩
    · rcases hp with hp | hp
      · exact ⟨_, List.mem_cons_self, fun m => mergeStores_covers hp⟩
      · exact ⟨_, List.mem_cons_of_mem _ List.mem_cons_self, fun m => mergeStores_covers hp⟩
  | iwht a b => exact fun p hp => ⟨_, List.mem_cons_self, fun m => iwhtStores_covers hp⟩
  | itxdc a b => exact fun p hp => ⟨_, List.mem_cons_self, fun m => mergeStores_covers hp⟩
  | itxac3 a b => exact fun p hp => ⟨_, List.mem_cons_self, fun m => mergeStores_covers hp⟩
  | fov a s e i h => exact edgePlan_covers
  | foh a s e i h => exact edgePlan_covers
  | fiv a s e i h => exact edgePlan_covers
  | fih a s e i h => exact edgePlan_covers

end Sys2Proof.Machine
end

