-- ==== Sys2Proof/Laws/PerInstr.lean ====
section
/-! SUPPORT. The statements made command by command, one lemma per constructor. -/

namespace Sys2Proof.Laws.OwnRow

/-- The encoding of a command is selected by its own row of the opcode map and by no other
(30_encoding R50, R51). -/
def Statement (i : Instr) : Prop := opcodeTable.filter (fun r => r.selects (encode i)) = [rowOf i]

theorem itx (two : Bool) (a b : Word) : Statement (.itx two a b) := by
  unfold Statement encode
  rw [filter_selects _ _ (pack_word0 0x01 two a b 0 0 0 0)]
  cases two <;> rfl

theorem iwht (a b : Word) : Statement (.iwht a b) := by
  unfold Statement encode
  rw [filter_selects _ _ (pack_word0 0x02 false a b 0 0 0 0)]
  rfl

theorem itxdc (a b : Word) : Statement (.itxdc a b) := by
  unfold Statement encode
  rw [filter_selects _ _ (pack_word0 0x03 false a b 0 0 0 0)]
  rfl

theorem itxac3 (a b : Word) : Statement (.itxac3 a b) := by
  unfold Statement encode
  rw [filter_selects _ _ (pack_word0 0x04 false a b 0 0 0 0)]
  rfl

theorem fov (a stride : Word) (elim ilim hevt : Half) : Statement (.fov a stride elim ilim hevt) := by
  unfold Statement encode
  rw [filter_selects _ _ (pack_word0 0x08 false a 0 stride elim ilim hevt)]
  rfl

theorem foh (a stride : Word) (elim ilim hevt : Half) : Statement (.foh a stride elim ilim hevt) := by
  unfold Statement encode
  rw [filter_selects _ _ (pack_word0 0x09 false a 0 stride elim ilim hevt)]
  rfl

theorem fiv (a stride : Word) (elim ilim hevt : Half) : Statement (.fiv a stride elim ilim hevt) := by
  unfold Statement encode
  rw [filter_selects _ _ (pack_word0 0x0A false a 0 stride elim ilim hevt)]
  rfl

theorem fih (a stride : Word) (elim ilim hevt : Half) : Statement (.fih a stride elim ilim hevt) := by
  unfold Statement encode
  rw [filter_selects _ _ (pack_word0 0x0B false a 0 stride elim ilim hevt)]
  rfl

end Sys2Proof.Laws.OwnRow
end

