-- ==== Sys2Proof/Tests/Slice0.lean ====
section
/-! SUPPORT. The model's own tests. Expected values come from spec/ alone: the worked encodings of
30_encoding R57, the encodings written out from R46 and R50, and the vectors of 95_test_vectors, named at each
test. The second half shows, for every statement with hypotheses, a state and operands that meet them. -/

namespace Sys2Proof.Tests

set_option Elab.async false

open Sys2Proof.Machine Sys2Proof.Safety

/-! ## Builders -/

/-- Bytes from an address on, zeros unlisted. -/
def cells (a : Nat) (bs : List Nat) : Memory :=
  ((List.range bs.length).zip bs).filterMap (fun c => if c.2 = 0 then none else some (a + c.1, BitVec.ofNat 8 c.2))

/-- 16-bit values from an address on, low byte first (20_memory R26). -/
def words (a : Nat) (vs : List Int) : Memory :=
  cells a (vs.flatMap (fun v => [(v % 256).toNat, (v / 256 % 256).toNat]))

/-- Rows of bytes, `pitch` apart. -/
def rows (a pitch : Nat) (rs : List (List Nat)) : Memory :=
  ((List.range rs.length).zip rs).flatMap (fun r => cells (a + pitch * r.1) r.2)

/-- The machine after reset with the given memory. -/
def plain (m : Memory) : State := { State.reset with mem := m }

/-- The bytes a command leaves at addresses, if it answers a next state. -/
def bytesAfter (i : Instr) (s : State) (as : List Nat) : Option (List Nat) :=
  match exec i s with
  | .next t => some (as.map (fun a => (t.mem.read a).toNat))
  | .fault _ => none
  | .refused _ => none

/-- The coefficients a command leaves at addresses, if it answers a next state. -/
def coefsAfter (i : Instr) (s : State) (as : List Nat) : Option (List Int) :=
  match exec i s with
  | .next t => some (as.map (fun a => coef t.mem (a : Int)))
  | .fault _ => none
  | .refused _ => none

/-- Why a command is refused. -/
def refusalOf (o : Host.Outcome State Fault Refusal) : Option Refusal :=
  match o with
  | .next _ => none
  | .fault _ => none
  | .refused r => some r

/-- Why a step faults. -/
def faultOf (o : Host.Outcome State Fault Refusal) : Option Fault :=
  match o with
  | .next _ => none
  | .fault f => some f
  | .refused _ => none

/-- The state a step answers. -/
def nextOf (o : Host.Outcome State Fault Refusal) : Option State :=
  match o with
  | .next t => some t
  | .fault _ => none
  | .refused _ => none

/-- The addresses of a 4x4 region at pitch 32, row by row. -/
def region (b : Nat) : List Nat := (List.range 16).map (fun i => b + 32 * (i / 4) + i % 4)

/-! ## Well-formedness: an ill-formed term for each check -/

theorem test_wf_itx_odd : (Instr.itx false 0x1001 0x2000).coefAligned = false := by decide
theorem test_wf_iwht_odd_out : (Instr.iwht 0x1000 0x3001).coefAligned = false := by decide
theorem test_wf_itxdc_odd : (Instr.itxdc 0x1001 0x2000).wellFormed = false := by decide
theorem test_wf_itxac3_odd : (Instr.itxac3 0x1001 0x2000).wellFormed = false := by decide
theorem test_wf_fov_narrow : (Instr.fov 0x4080 15 40 2 2).strideWide = false := by decide
theorem test_wf_foh_narrow : (Instr.foh 0x6004 7 40 2 2).strideWide = false := by decide
theorem test_wf_fiv_narrow : (Instr.fiv 0x4080 15 40 2 2).wellFormed = false := by decide
theorem test_wf_fih_narrow : (Instr.fih 0x5000 15 40 2 2).wellFormed = false := by decide
theorem test_wf_good : (Instr.itx true 0x1000 0x2001).wellFormed = true ∧ (Instr.foh 0x6004 8 40 2 2).wellFormed = true := by
  decide

/-! ## Decoding: words written out from R46 and R50 -/

/-- W0 bit by bit: OP 0x01 in bits 7..0, TWO in bit 8. -/
theorem test_decode_itx_bits :
    (decode (Descriptor.ofWords (0b00000000000000000000000#23 ++ 0b1#1 ++ 0b00000001#8) 0x3000 0x2000 0 0 0)).toOption =
      some (.itx true 0x3000 0x2000) := by decide +kernel

theorem test_decode_itx :
    (decode (Descriptor.ofWords 0x00000001 0x00001000 0x00002004 0 0 0)).toOption = some (.itx false 0x1000 0x2004) := by
  decide +kernel

theorem test_decode_iwht :
    (decode (Descriptor.ofWords 0x00000002 0x00001000 0x00003000 0 0 0)).toOption = some (.iwht 0x1000 0x3000) := by
  decide +kernel

theorem test_decode_itxdc :
    (decode (Descriptor.ofWords 0x00000003 0x00001000 0x00002000 0 0 0)).toOption = some (.itxdc 0x1000 0x2000) := by
  decide +kernel

theorem test_decode_itxac3 :
    (decode (Descriptor.ofWords 0x00000004 0xFFFFFFFE 0x80000001 0 0 0)).toOption =
      some (.itxac3 0xFFFFFFFE 0x80000001) := by decide +kernel

/-- W4 holds ILIM above ELIM, W5 HEVT below ignored bits. -/
theorem test_decode_fov_bits :
    (decode (Descriptor.ofWords (0#24 ++ 0b00001000#8) 0x4080 0xAAAAAAAA 32 (0x0002#16 ++ 0x0028#16)
      (0xBEEF#16 ++ 0x0003#16))).toOption = some (.fov 0x4080 32 40 2 3) := by decide +kernel

theorem test_decode_foh :
    (decode (Descriptor.ofWords 0x00000009 0x00006004 0 0x00000008 0x00280064 0x00000002)).toOption =
      some (.foh 0x6004 8 100 40 2) := by decide +kernel

theorem test_decode_fiv :
    (decode (Descriptor.ofWords 0x0000000A 0x00004080 0 0x00000020 0x00010028 0x00000002)).toOption =
      some (.fiv 0x4080 32 40 1 2) := by decide +kernel

theorem test_decode_fih :
    (decode (Descriptor.ofWords 0x0000000B 0x00005000 0 0x00000010 0x00010028 0x00000002)).toOption =
      some (.fih 0x5000 16 40 1 2) := by decide +kernel

/-- X1 to X4 of 95: no command. -/
theorem test_decode_illegal :
    [Descriptor.ofWords 0 0 0 0 0 0, Descriptor.ofWords 0x102 0x1000 0x3000 0 0 0,
     Descriptor.ofWords 0x201 0x1000 0x2000 0 0 0, Descriptor.ofWords 5 0x1000 0x2000 0 0 0].all
      (fun d => (decode d).toOption.isNone) = true := by decide +kernel

/-- The reasons have names of their own. -/
theorem test_illegal_reasons :
    illegalReason (Descriptor.ofWords 0x201 0 0 0 0 0) = .reservedBits 1 ∧
    illegalReason (Descriptor.ofWords 0x102 0 0 0 0 0) = .twoNotItx 2 ∧
    illegalReason (Descriptor.ofWords 0x00C 0 0 0 0 0) = .unassignedOp 12 := by decide +kernel

/-- X11: unused fields have no effect. -/
theorem test_decode_ignored :
    (decode (Descriptor.ofWords 3 0x1000 0x2000 0xDEADBEEF 0x12345678 0xFFFF0000)).toOption =
      some (.itxdc 0x1000 0x2000) := by decide +kernel

/-- The table's numbering: bit 0 of W0 first. -/
theorem test_decodeTableWord : decodeTableWord 192 (0x2000 * 2 ^ 64 + 0x1000 * 2 ^ 32 + 3) = some (.itxdc 0x1000 0x2000) := by
  decide +kernel

/-- R56: ITX2 is ITX with `two`; a comment ends the text (R55). -/
theorem test_assemble_pseudo :
    assemble "ITX2 coef=0x3000, pix=0x2000 ; two blocks".toList =
      assemble "ITX coef=0x3000, pix=0x2000, two".toList ∧
    assemble "ITX1 coef=12288, pix=8192".toList = some (Descriptor.ofWords 1 0x3000 0x2000 0 0 0) := by decide +kernel

/-! ## Kernels and primitives: vectors of 95, part 2 -/

/-- A10, A11, A12. -/
theorem test_butterflies :
    bf 1 2 3 4 = ⟨8, -6, 2, 0⟩ ∧ bf 0 100 0 0 = ⟨130, 54, -54, -130⟩ ∧ bf 0 0 0 100 = ⟨54, -130, 130, -54⟩ ∧
    bfw 1 2 3 4 = ⟨10, -4, 0, -2⟩ := by decide

/-- A16, A17, A18, A19. -/
theorem test_narrowing :
    trunc16 32768 = -32768 ∧ trunc16 (-32769) = 32767 ∧ [15, 5, -3, -1, -16].map half = [8, 3, -1, 0, -8] ∧
    step7 (27 * 127 + 63) = 27 ∧ step7 (9 * (-128) + 63) = -9 := by decide

/-- A20, A21, A22. -/
theorem test_delta :
    delta 127 (-128) 127 (-128) true = 127 ∧ delta (-128) 127 (-128) 127 true = -128 ∧
    delta 0 0 43 0 false = 127 ∧ delta 0 0 42 0 false = 126 := by decide

/-- F1, F2, F7b, F7c, F10, F13 of the 4-tap filter. -/
theorem test_f4_vectors :
    kernelF4 ⟨475, 1000, 1000⟩ ⟨10, 10, 10, 10, 200, 200, 200, 200⟩ = ⟨10, 10, 18, 25, 185, 192, 200, 200⟩ ∧
    kernelF4 ⟨474, 1000, 1000⟩ ⟨10, 10, 10, 10, 200, 200, 200, 200⟩ = ⟨10, 10, 10, 10, 200, 200, 200, 200⟩ ∧
    kernelF4 ⟨255, 255, 14⟩ ⟨100, 100, 90, 100, 110, 125, 110, 110⟩ = ⟨100, 100, 90, 99, 111, 125, 110, 110⟩ ∧
    kernelF4 ⟨255, 255, 15⟩ ⟨100, 100, 90, 100, 110, 125, 110, 110⟩ = ⟨100, 100, 92, 104, 106, 123, 110, 110⟩ ∧
    kernelF4 ⟨60, 12, 8⟩ ⟨64, 66, 70, 76, 90, 98, 102, 104⟩ = ⟨64, 66, 73, 81, 85, 95, 102, 104⟩ ∧
    kernelF4 ⟨65535, 65535, 0⟩ ⟨0, 0, 255, 3, 250, 0, 0, 0⟩ = ⟨0, 0, 255, 18, 235, 0, 0, 0⟩ := by decide

/-- F15, F17b, F18, F18b, F19b, F22 of the 6-tap filter. -/
theorem test_f6_vectors :
    kernelF6 ⟨40, 10, 2⟩ ⟨100, 100, 100, 100, 110, 110, 110, 110⟩ = ⟨100, 101, 103, 104, 106, 107, 109, 110⟩ ∧
    kernelF6 ⟨25, 10, 2⟩ ⟨100, 100, 100, 100, 110, 110, 110, 120⟩ = ⟨100, 101, 103, 104, 106, 107, 109, 120⟩ ∧
    kernelF6 ⟨255, 255, 5⟩ ⟨100, 100, 90, 100, 110, 125, 110, 110⟩ = ⟨100, 100, 90, 99, 111, 125, 110, 110⟩ ∧
    kernelF6 ⟨255, 255, 15⟩ ⟨100, 100, 90, 100, 110, 125, 110, 110⟩ = ⟨100, 100, 89, 99, 111, 126, 110, 110⟩ ∧
    kernelF6 ⟨65535, 65535, 65535⟩ ⟨255, 255, 255, 255, 0, 0, 0, 0⟩ = ⟨255, 246, 237, 228, 27, 18, 9, 0⟩ ∧
    kernelF6 ⟨100, 40, 2⟩ ⟨90, 90, 90, 60, 100, 100, 100, 100⟩ = ⟨90, 90, 90, 74, 86, 100, 100, 100⟩ := by decide

/-! ## One command, one step -/

/-- T5's coefficients at 0x1000, T6's prediction at 0x2000. -/
def stItx : State :=
  plain (words 0x1000 [64, -20, 7, 0, 33, -5, 0, 2, -12, 0, 3, 0, 5, 0, 0, -1] ++
    rows 0x2000 32 [[10, 20, 30, 40], [50, 60, 70, 80], [250, 251, 252, 253], [0, 1, 2, 3]])

/-- T6. -/
theorem test_itx_t6 : bytesAfter (.itx false 0x1000 0x2000) stItx (region 0x2000) =
    some [19, 29, 43, 58, 58, 68, 82, 95, 255, 255, 255, 255, 0, 0, 2, 7] := by decide +kernel

/-- Program 2 after its IWHT: blocks 11 5 0 .. and 11 0 0 0 -7 .. at 0x3000. -/
def stTwo : State :=
  plain (rows 0x2000 32 [List.replicate 8 128, List.replicate 8 128, List.replicate 8 128, List.replicate 8 128] ++
    words 0x3000 ([11, 5] ++ List.replicate 14 0 ++ [11, 0, 0, 0, -7] ++ List.replicate 11 0))

/-- Program 2: the second block uses coefficients 16 to 31 and columns 4 to 7. -/
theorem test_itx_two : bytesAfter (.itx true 0x3000 0x2000) stTwo (region 0x2000 ++ region 0x2004) =
    some [130, 130, 129, 129, 130, 130, 129, 129, 130, 130, 129, 129, 130, 130, 129, 129,
      128, 128, 128, 128, 129, 129, 129, 129, 130, 130, 130, 130, 131, 131, 131, 131] := by decide +kernel

/-- W11's input at 0x1000, entries 1 and 20 of the array at 0x3000 as in program 2. -/
def stIwht : State :=
  plain (words 0x1000 [80, -16, 8, 0, 24, 0, 0, -8, 0, 8, 0, 0, -8, 0, 0, 0] ++ words 0x3002 [5] ++ words 0x3028 [-7])

/-- W11 and program 2: the 16 outputs, and the entries between them kept. -/
theorem test_iwht_w11 :
    coefsAfter (.iwht 0x1000 0x3000) stIwht
      ((List.range 16).map (fun i => 0x3000 + 32 * i) ++ [0x3002, 0x3028, 0x31E2, 0x1002]) =
    some [11, 11, 11, 15, 11, 11, 15, 19, 5, 1, 9, 9, 9, 5, 9, 9, 5, -7, 0, -16] := by decide +kernel

/-- W12: the first output wraps. -/
theorem test_iwht_w12 :
    coefsAfter (.iwht 0x1000 0x3000) (plain (words 0x1000 (List.replicate 16 32767))) [0x3000, 0x3020, 0x31E0] =
      some [-2, 0, 0] := by decide +kernel

/-- Program 1's memory. -/
def stDc : State :=
  plain (words 0x1000 (32 :: List.replicate 15 0) ++
    rows 0x2000 32 [List.replicate 8 100, List.replicate 8 100, List.replicate 8 100, List.replicate 8 100])

/-- Program 1, first command: columns 4 to 7 are untouched. -/
theorem test_itxdc_program1 : bytesAfter (.itxdc 0x1000 0x2000) stDc (region 0x2000 ++ [0x2004, 0x2064, 0x2080]) =
    some (List.replicate 16 104 ++ [100, 100, 0]) := by decide +kernel

/-- D2v with D4v's coefficient 5: it saturates, and coefficient 5 is not read. -/
theorem test_itxdc_d2v :
    bytesAfter (.itxdc 0x1000 0x2000)
      (plain (words 0x1000 [2047, 0, 0, 0, 0, 1000] ++ cells 0x2000 [0, 100, 200, 255])) [0x2000, 0x2001, 0x2003] =
      some [255, 255, 255] := by decide +kernel

/-- T9's coefficients, prediction 128. -/
def stAc3 : State :=
  plain (words 0x1000 ([50, -30, 0, 0, 17] ++ List.replicate 11 0) ++
    rows 0x2000 32 [List.replicate 4 128, List.replicate 4 128, List.replicate 4 128, List.replicate 4 128])

/-- A3v. -/
theorem test_itxac3_a3v : bytesAfter (.itxac3 0x1000 0x2000) stAc3 (region 0x2000) =
    some [132, 135, 139, 142, 130, 133, 138, 140, 128, 131, 135, 138, 127, 129, 134, 137] := by decide +kernel

/-- A5v: the floor asymmetry of a negative coefficient 4. -/
theorem test_itxac3_a5v :
    bytesAfter (.itxac3 0x1000 0x2000) (plain (words 0x1000 [0, 0, 0, 0, -3])) (region 0x2000) =
      some [0, 0, 0, 0, 0, 0, 0, 0, 0, 0, 0, 0, 1, 1, 1, 1] := by decide +kernel

/-- Program 3's plane at 0x4000, pitch 32, in its first and last column; byte 16 of each row is 77. The
other columns are 0. -/
def planeOf (vs : List Nat) : State :=
  plain (rows 0x4000 32 (vs.map (fun v => [v] ++ List.replicate 14 0 ++ [v, 77])))

def stFov : State :=
  planeOf [90, 90, 90, 90, 100, 100, 100, 100, 110, 110, 110, 110, 120, 120, 120, 120, 130, 130, 130, 130]

/-- Column `x` of the 20 rows of program 3's plane. -/
def column (x : Nat) : List Nat := (List.range 20).map (fun y => 0x4000 + 32 * y + x)

/-- Program 3, FOV, in the first and the last lane and beside them. -/
theorem test_fov_program3 :
    bytesAfter (.fov 0x4080 32 40 2 2) stFov (column 0 ++ column 15 ++ [0x4010, 0x4090, 0x4067]) =
      some ([90, 91, 93, 94, 96, 97, 99, 100, 110, 110, 110, 110, 120, 120, 120, 120, 130, 130, 130, 130] ++
        [90, 91, 93, 94, 96, 97, 99, 100, 110, 110, 110, 110, 120, 120, 120, 120, 130, 130, 130, 130] ++
        [77, 77, 0]) := by
  decide +kernel

def stFiv : State :=
  planeOf [90, 91, 93, 94, 96, 97, 99, 100, 110, 110, 110, 110, 120, 120, 120, 120, 130, 130, 130, 130]

/-- Program 3, FIV. -/
theorem test_fiv_program3 :
    bytesAfter (.fiv 0x4080 32 40 2 2) stFiv (column 0 ++ [0x4090]) =
      some [90, 91, 93, 94, 96, 97, 101, 104, 106, 108, 112, 114, 116, 118, 122, 124, 126, 128, 130, 130, 77] := by
  decide +kernel

/-- Program 3's variant with ILIM 1: edge 2 changes what edge 3 sees. -/
theorem test_fiv_variant :
    bytesAfter (.fiv 0x4080 32 40 1 2) stFiv (column 15) =
      some [90, 91, 93, 94, 96, 97, 99, 100, 110, 110, 112, 114, 116, 118, 120, 120, 130, 130, 130, 130] := by
  decide +kernel

/-- Program 4's macroblock in its first and last row; the others are 0. -/
def stFih : State :=
  plain (rows 0x5000 240 (List.replicate 2
    [100, 100, 100, 100, 110, 110, 110, 110, 120, 120, 120, 120, 130, 130, 130, 130]))

/-- Program 4 (F20): the last row. -/
theorem test_fih_program4 :
    bytesAfter (.fih 0x5000 16 40 1 2) stFih ((List.range 16).map (fun x => 0x50F0 + x)) =
      some [100, 100, 102, 104, 106, 108, 110, 110, 120, 120, 122, 124, 126, 128, 130, 130] := by decide +kernel

/-- Program 5's rows 0 and 5; the others are 0. -/
def stFoh : State := plain (rows 0x6000 80 [[90, 90, 90, 90, 100, 100, 100, 100], [90, 90, 90, 60, 100, 100, 100, 100]])

/-- Program 5: lane 0 and the lane that differs. -/
theorem test_foh_program5 :
    bytesAfter (.foh 0x6004 16 100 40 2) stFoh
      ((List.range 8).map (fun x => 0x6000 + x) ++ (List.range 9).map (fun x => 0x6050 + x)) =
      some ([90, 91, 93, 94, 96, 97, 99, 100] ++ [90, 90, 90, 74, 86, 100, 100, 100, 0]) := by decide +kernel

/-- X5, X6, X7, X8, X10, X12: the refusals and what they record (log 7). -/
theorem test_refusals :
    refusalOf (exec (.itxdc 0x1001 0x2000) State.reset) = some (.misalignedCoef 0x1001) ∧
    refusalOf (exec (.itx false 0xFFFFFFF0 0x2000) State.reset) = some (.addressRange (2 ^ 32)) ∧
    refusalOf (exec (.fov 0x40 32 40 2 2) State.reset) = some (.addressRange (-64)) ∧
    refusalOf (exec (.fov 0x4080 8 40 2 2) State.reset) = some .overlappingFootprint ∧
    refusalOf (exec (.iwht 0x1000 0x1000) State.reset) = some .overlappingFootprint ∧
    refusalOf (exec (.itx false 0x1000 0x1008) State.reset) = some .overlappingFootprint := by decide +kernel

/-- X9 and X11: legal, and they run. -/
theorem test_legal_corners :
    (nextOf (exec (.foh 0x6004 8 100 40 2) State.reset)).isSome = true ∧
    nextOf (step { stDc with latch := some (Descriptor.ofWords 3 0x1000 0x2000 0xDEADBEEF 0x12345678 0xFFFF0000) }) =
      nextOf (exec (.itxdc 0x1000 0x2000) stDc) := by decide +kernel

/-- Program 6, step 2: the illegal descriptor faults and records W0. -/
theorem test_illegal_faults :
    faultOf (step { stDc with latch := some (Descriptor.ofWords 0x103 0x1000 0x2004 0 0 0) }) =
      some (.illegalCommand 0x103) := by decide +kernel

/-- The host places a descriptor in the latch; the next step runs it. -/
theorem test_withFetchWord :
    nextOf (step (stDc.withFetchWord 192 (0x2000 * 2 ^ 64 + 0x1000 * 2 ^ 32 + 3))) =
      (nextOf (exec (.itxdc 0x1000 0x2000) stDc)).map (fun t => { t with inbox := [.await] }) := by decide +kernel

/-! ## Witnesses: states and operands that meet the hypotheses of the statements -/

/-- A lane of samples, a lane with high edge variance, and a lane at the ends of the range. -/
def laneFlat : Lane := ⟨100, 100, 100, 100, 110, 110, 110, 110⟩
def laneHigh : Lane := ⟨100, 100, 90, 100, 110, 125, 110, 110⟩
def laneEnds : Lane := ⟨0, 255, 0, 255, 0, 255, 0, 255⟩

/-- `Defined` at one state for each command. -/
theorem test_wit_itx_defined : Defined (.itx false 0x1000 0x2000) stItx := by decide +kernel
theorem test_wit_itx_two_defined : Defined (.itx true 0x3000 0x2000) stTwo := by decide +kernel
theorem test_wit_iwht_defined : Defined (.iwht 0x1000 0x3000) stIwht := by decide +kernel
theorem test_wit_itxdc_defined : Defined (.itxdc 0x1000 0x2000) stDc := by decide +kernel
theorem test_wit_itxac3_defined : Defined (.itxac3 0x1000 0x2000) stAc3 := by decide +kernel
theorem test_wit_fov_defined : Defined (.fov 0x4080 32 40 2 2) stFov := by decide +kernel
theorem test_wit_foh_defined : Defined (.foh 0x6004 16 100 40 2) stFoh := by decide +kernel
theorem test_wit_fiv_defined : Defined (.fiv 0x4080 32 40 2 2) stFiv := by decide +kernel
theorem test_wit_fih_defined : Defined (.fih 0x5000 16 40 1 2) stFih := by decide +kernel

/-- `Defined` where it ends: a block at the top of the address space, pixels right after the coefficients;
the narrowest strides; the lowest and the highest edges. -/
theorem test_wit_defined_boundaries :
    Defined (.itxdc 0xFFFFFFE0 0) State.reset ∧ Defined (.itxdc 0x1000 0x1002) State.reset ∧
    Defined (.itxac3 0x1000 0x100A) State.reset := by decide +kernel

theorem test_wit_defined_boundaries_blocks :
    Defined (.itx false 0x1000 0x1020) State.reset ∧ Defined (.itx true 0x1000 0x1040) State.reset ∧
    Defined (.iwht 0x31E2 0x3000) State.reset := by decide +kernel

theorem test_wit_defined_boundaries_edges :
    Defined (.fov 64 16 0 0 0) State.reset ∧ Defined (.foh 4 8 0 0 0) State.reset ∧
    Defined (.foh 0xFFFFFF84 8 0 0 0) State.reset := by decide +kernel

/-- ItxReconstructsItsBlocks: the two passes of a block exist, T5's in numbers. -/
theorem test_wit_twoPasses (c : Nat → Int) : TwoPasses c (interT c) (fun y x => quadAt (passAcross c y) x) :=
  ⟨fun _ _ => rfl, fun _ _ => rfl⟩

theorem test_wit_passes_t5 :
    (List.range 4).map (interT (blockCoef stItx.mem 0x1000) 0) = [97, -27, 10, 1] ∧
    (List.range 4).map (interT (blockCoef stItx.mem 0x1000) 3) = [7, -13, 10, -1] := by decide +kernel

/-- DecodeSelectsTheOneMatchingRow: a row that selects, and a descriptor that none selects. -/
theorem test_wit_rows :
    rowItx.selects (Descriptor.ofWords 0x101 0 0 0 0 0) = true ∧ rowFih.selects (Descriptor.ofWords 0xB 0 0 0 0 0) = true ∧
    (∀ r ∈ opcodeTable, r.selects (Descriptor.ofWords 0x109 0 0 0 0 0) = false) := by decide +kernel

/-- ClampsSaturate, TruncationWraps, StepwiseSaturationIsOneClamp, TwoTapCorrections, SixTapStepsNeedNoClamp at
the ends of their ranges. -/
theorem test_wit_ranges :
    ssub8 (-1) (-128) = 127 ∧ ssub8 127 (-128) = 127 ∧ trunc16 (-32768) = -32768 ∧ trunc16 32767 = 32767 ∧
    sadd8 (sadd8 (sadd8 (-128) (clamp8s (127 - -128))) (clamp8s (127 - -128))) (clamp8s (127 - -128)) = 127 ∧
    sadd8 (sadd8 (sadd8 127 (clamp8s (-128 - 127))) (clamp8s (-128 - 127))) (clamp8s (-128 - 127)) = -128 ∧
    tapF1 (-128) = -16 ∧ tapF1 124 = 15 ∧ tapF2 124 = 15 ∧ tapF1 116 = 15 ∧ tapF2 116 = 14 ∧
    step7 (27 * (-128) + 63) = -27 := by decide

/-- CoefficientsAreLittleEndian: program 2's bytes `F0 FF` and `13 00`, and a store that tells the bytes apart. -/
theorem test_wit_littleEndian :
    coef (cells 0x1002 [0xF0, 0xFF]) 0x1002 = -16 ∧ coef (cells 0x30E0 [0x13, 0x00]) 0x30E0 = 19 ∧
    coef (cells 0x1000 [0xFF, 0x7F]) 0x1000 = 32767 ∧ coef (cells 0x1000 [0x00, 0x80]) 0x1000 = -32768 ∧
    (Memory.writeAll [] (memWriteStores 0x1000 2 0x1234)).read 0x1000 = 0x34 ∧
    (Memory.writeAll [] (memWriteStores 0x1000 2 0x1234)).read 0x1001 = 0x12 := by decide +kernel

/-- FullButterflyAlgebra: the sums of R71's example. -/
theorem test_wit_bf : (11 : Int) = mul2 33 - mul1 5 ∧ (45 : Int) = mul1 33 + mul2 5 ∧ (52 : Int) = 64 + -12 ∧
    (76 : Int) = 64 - -12 := by decide

/-- TransformWidthsSuffice: T11, all coefficients at the negative extreme. -/
theorem test_wit_extreme :
    interT (fun _ => -32768) 0 0 = -126084 ∧ blockResidual (fun _ => -32768) 0 0 = -60643 := by decide +kernel

/-- PassOrderIsObservable: its block and its other order exist. -/
theorem test_wit_passOrder : ∃ (c : Nat → Int) (rf : Nat → Nat → Int), (∀ i, c i = if i = 6 then 3 else 0) ∧
    ∀ y x, rf y x = rndT (quadAt (bf (quadAt (bf (c 0) (c 1) (c 2) (c 3)) x)
      (quadAt (bf (c 4) (c 5) (c 6) (c 7)) x) (quadAt (bf (c 8) (c 9) (c 10) (c 11)) x)
      (quadAt (bf (c 12) (c 13) (c 14) (c 15)) x)) y) :=
  ⟨fun i => if i = 6 then 3 else 0, fun _ _ => _, fun _ => rfl, fun _ _ => rfl⟩

/-- DcOnlyResidual at the ends of [-4, 3] and past them (T2). -/
theorem test_wit_dcOnly :
    [-5, -4, 3, 4].map (fun v : Int => blockResidual (fun i => if i = 0 then v else 0) 2 3) = [-1, 0, 0, 1] := by
  decide +kernel

/-- ItxdcEqualsItxOnDcBlocks and Itxac3EqualsItxOnAc3Blocks: blocks of the two kinds, with `Defined` above. -/
theorem test_wit_dc_block :
    (∀ i : Nat, i < 16 → 1 ≤ i → coef stDc.mem (0x1000 + 2 * i) = 0) ∧ coef stDc.mem 0x1000 = 32 ∧
    Defined (.itx false 0x1000 0x2000) stDc := by decide +kernel

theorem test_wit_ac3_block :
    (∀ i : Nat, i < 16 → i ≠ 0 → i ≠ 1 → i ≠ 4 → coef stAc3.mem (0x1000 + 2 * i) = 0) ∧
    Defined (.itx false 0x1000 0x2000) stAc3 := by decide +kernel

theorem test_wit_ac3_dc_block :
    coef stDc.mem (0x1000 + 2) = 0 ∧ coef stDc.mem (0x1000 + 8) = 0 ∧ Defined (.itxac3 0x1000 0x2000) stDc := by
  decide +kernel

/-- WalshOutputFitsOrWraps: inputs whose magnitudes sum to exactly 262140. -/
theorem test_wit_walsh : (∑ i ∈ Finset.range 16, |(fun i : Nat => if i < 12 then (16384 : Int) else 16383) i|) = 262140 := by
  decide +kernel

/-- HevComparesTheActivity, MaskIsWithinTheLimits, FourTapProperties, SixTapProperties: lanes in range, filtered
and not, with high variance and without, with limits at the boundary. -/
theorem test_wit_lanes :
    InSampleRange laneFlat ∧ InSampleRange laneHigh ∧ InSampleRange laneEnds ∧
    laneMask ⟨25, 10, 2⟩ laneFlat = true ∧ laneMask ⟨24, 10, 2⟩ laneFlat = false ∧
    laneHev ⟨255, 255, 14⟩ laneHigh = true ∧ laneHev ⟨255, 255, 15⟩ laneHigh = false ∧
    laneMask ⟨255, 255, 14⟩ laneHigh = true ∧ laneHev ⟨255, 255, 255⟩ laneEnds = false ∧
    laneHev ⟨0, 0, 0⟩ laneFlat = false := by
  unfold InSampleRange
  decide

/-- FourTapKernel: F3's steps meet its equations. -/
theorem test_wit_f4_steps :
    (9 : Int) = (if laneMask ⟨8, 255, 255⟩ ⟨100, 100, 100, 100, 103, 105, 105, 105⟩ then
      clamp8s ((if laneHev ⟨8, 255, 255⟩ ⟨100, 100, 100, 100, 103, 105, 105, 105⟩ then
        clamp8s ((100 - 128) - (105 - 128)) else 0) + 3 * ((103 - 128) - (100 - 128))) else 0) ∧
    (1 : Int) = sra (clamp8s (9 + 4)) 3 ∧ (1 : Int) = sra (clamp8s (9 + 3)) 3 ∧ (1 : Int) = sra (1 + 1) 1 := by decide

/-- SixTapKernel: F15's steps meet its equations. -/
theorem test_wit_f6_steps :
    (20 : Int) = clamp8s (clamp8s ((100 - 128) - (110 - 128)) + 3 * ((110 - 128) - (100 - 128))) ∧
    laneMask ⟨40, 10, 2⟩ laneFlat = true ∧ laneHev ⟨40, 10, 2⟩ laneFlat = false ∧
    (-28 : Int) = clamp8s (100 - 128 + sra (clamp8s (0 + 3)) 3) ∧
    (-18 : Int) = clamp8s (110 - 128 - sra (clamp8s (0 + 4)) 3) ∧
    (1 : Int) = clamp8s (sra (9 * 20 + 63) 7) ∧ (3 : Int) = clamp8s (sra (18 * 20 + 63) 7) ∧
    (4 : Int) = clamp8s (sra (27 * 20 + 63) 7) := by decide

/-- MaskedOffEdgesStayUnchanged: every lane is flat from side to side but the edge exceeds ELIM. -/
def stStep : State := plain (rows 0x4000 16 (List.replicate 4 (List.replicate 16 100) ++ List.replicate 4 (List.replicate 16 110)))

theorem test_wit_maskedOff :
    edgesOf (.fov 0x4040 16 24 10 2) = some ([0x4040], 16, 1, ⟨24, 10, 2⟩) ∧ Defined (.fov 0x4040 16 24 10 2) stStep ∧
    ∀ l, l < 16 → laneMask ⟨24, 10, 2⟩ (readLane stStep.mem 0x4040 16 1 l) = false := by decide +kernel

/-- OrientationDoesNotChangeArithmetic, outer edge: program 5's two lanes and their transpose. -/
def stFohT : State :=
  plain (rows 0x7000 16 ([[90, 0, 0, 0, 0, 90], [90, 0, 0, 0, 0, 90], [90, 0, 0, 0, 0, 90], [90, 0, 0, 0, 0, 60]] ++
    List.replicate 4 [100, 0, 0, 0, 0, 100]))

theorem test_wit_orientation_outer :
    Defined (.fov 0x7040 16 100 40 2) stFohT ∧ Defined (.foh 0x6004 16 100 40 2) stFoh ∧
    ∀ l : Nat, l < 16 → ∀ k ∈ allTaps,
      pix stFoh.mem (0x6004 + l * 16 + k) = pix stFohT.mem (0x7040 + k * 16 + l) := by decide +kernel

/-- The same, inner edges: program 4's two rows and their transpose. -/
def stFihT : State :=
  plain (rows 0x7000 16 (([100, 100, 100, 100, 110, 110, 110, 110, 120, 120, 120, 120, 130, 130, 130, 130]).map
    (fun v => [v] ++ List.replicate 14 0 ++ [v])))

theorem test_wit_orientation_inner :
    Defined (.fiv 0x7000 16 40 1 2) stFihT ∧ Defined (.fih 0x5000 16 40 1 2) stFih ∧
    ∀ l : Nat, l < 16 → ∀ r : Nat, r < 16 →
      pix stFih.mem (0x5000 + l * 16 + r) = pix stFihT.mem (0x7000 + r * 16 + l) := by decide +kernel

/-- LanesAreIndependent: two states that agree on lane 15 and differ on lane 0. -/
def stLanes : State := plain (rows 0x4000 32 ((List.range 20).map (fun y =>
  [7] ++ List.replicate 14 0 ++ [if y < 4 then 90 else if y < 8 then 100 else if y < 12 then 110 else if y < 16 then 120 else 130])))

theorem test_wit_lanesIndependent :
    stLanes.platform = stFov.platform ∧ pix stLanes.mem 0x4080 ≠ pix stFov.mem 0x4080 ∧
    (∀ k ∈ allTaps, pix stLanes.mem (0x4080 + k * 32 + 15) = pix stFov.mem (0x4080 + k * 32 + 15)) ∧
    ∀ r : Nat, r < 16 → pix stLanes.mem (0x4080 + r * 32 + 15) = pix stFov.mem (0x4080 + r * 32 + 15) := by
  decide +kernel

/-- The same for rows: two states that agree on row 5 of program 5 and on row 15 of program 4, and differ on
row 0. -/
def stRowsFoh : State := plain (rows 0x6000 80 [[7, 7, 7, 7, 9, 9, 9, 9], [90, 90, 90, 60, 100, 100, 100, 100]])
def stRowsFih : State :=
  plain (rows 0x5000 240 [[7], [100, 100, 100, 100, 110, 110, 110, 110, 120, 120, 120, 120, 130, 130, 130, 130]])

theorem test_wit_rowsIndependent :
    stRowsFoh.platform = stFoh.platform ∧ pix stRowsFoh.mem 0x6000 ≠ pix stFoh.mem 0x6000 ∧
    (∀ k ∈ allTaps, pix stRowsFoh.mem (0x6004 + 5 * 16 + k) = pix stFoh.mem (0x6004 + 5 * 16 + k)) ∧
    stRowsFih.platform = stFih.platform ∧ pix stRowsFih.mem 0x5000 ≠ pix stFih.mem 0x5000 ∧
    ∀ r : Nat, r < 16 → pix stRowsFih.mem (0x5000 + 15 * 16 + r) = pix stFih.mem (0x5000 + 15 * 16 + r) := by
  decide +kernel

/-- TransformsCompleteInPlainMemory and FiltersCompleteInPlainMemory: operands at the ends of their ranges
complete (`test_wit_defined_boundaries`), and one past an end they do not. -/
theorem test_wit_plain_boundaries :
    State.reset.platform.map = [⟨0, 2 ^ 32, .ram⟩] ∧
    ¬Defined (.itxdc 0x1000 0x1001) State.reset ∧ ¬Defined (.itxac3 0x1000 0x1009) State.reset ∧
    ¬Defined (.iwht 0x31E0 0x3000) State.reset := by decide +kernel

theorem test_wit_edge_boundaries :
    ¬Defined (.fov 63 16 0 0 0) State.reset ∧ ¬Defined (.foh 4 7 0 0 0) State.reset ∧
    ¬Defined (.foh 0xFFFFFF85 8 0 0 0) State.reset := by decide +kernel

theorem test_wit_inner_boundaries :
    Defined (.fiv 0 16 0 0 0) State.reset ∧ Defined (.fih 0xFFFFFF00 16 0 0 0) State.reset ∧
    ¬Defined (.fiv 0xFFFFFF01 16 0 0 0) State.reset := by decide +kernel

/-- FirstBrokenPreconditionDecides: a state and a command for each of its clauses. -/
def stBps7 : State := { stDc with platform := { bps := 7, map := [⟨0, 2 ^ 32, .ram⟩] } }
def stDevice : State := { stDc with platform := { bps := 32, map := [⟨0, 0x2000, .ram⟩, ⟨0x2000, 0x1000, .device⟩] } }

theorem test_wit_checks :
    ¬GoodParameter (planOf (.itxdc 0x1001 0x2000) stBps7.platform) stBps7.platform ∧
    ¬Aligned (planOf (.itxdc 0x1001 0xFFFFFFFF) stDc.platform) ∧
    ¬Reachable (planOf (.itxdc 0x1000 0xFFFFFFFF) stDc.platform) stDc.platform ∧
    ¬Separate (planOf (.itxdc 0x2000 0x2001) stDevice.platform) ∧
    ¬Ordinary (planOf (.itxdc 0x1000 0x2000) stDevice.platform) stDevice.platform := by decide +kernel

theorem test_wit_check_order :
    refusalOf (exec (.itxdc 0x1001 0x2000) stBps7) = some .badParameter ∧
    refusalOf (exec (.itxdc 0x1001 0xFFFFFFFF) stDc) = some (.misalignedCoef 0x1001) ∧
    refusalOf (exec (.itxdc 0x1000 0xFFFFFFFF) stDc) = some (.addressRange (2 ^ 32)) ∧
    refusalOf (exec (.itxdc 0x2000 0x2001) stDevice) = some .overlappingFootprint ∧
    refusalOf (exec (.itxdc 0x1000 0x2000) stDevice) = some .notMemory := by decide +kernel

/-- A command in the latch, and what the host may do meanwhile. -/
def stBusy (evs : List HostEvent) : State := { stDc with latch := some (encode (.itxdc 0x1000 0x2000)), inbox := evs }
def writeCoef : Access := ⟨[], [(0x1000, 5)]⟩
def readPixel : Access := ⟨[0x2063], []⟩
def touchElsewhere : Access := ⟨[0x1000, 0x2004], [(0x1002, 9), (0x2004, 8), (0x2004, 9)]⟩
def writeTwice : Access := ⟨[], [(0x1000, 5), (0x1001, 7), (0x1000, 6)]⟩

/-- StepRunsTheLatchedCommand, StepsKeepMemoryCanonical, StepsWriteOnlyTheFootprint,
CompletionIsSignalledOnce: a latched command, run by one step. -/
theorem test_wit_latched :
    (decode (encode (.itxdc 0x1000 0x2000))).toOption = some (.itxdc 0x1000 0x2000) ∧
    (stBusy []).mem.wf = true ∧ (nextOf (step (stBusy []))).isSome = true ∧
    (nextOf (step (stBusy []))).map (fun t => (t.latch, t.completions, t.mem.wf)) = some (none, 1, true) := by
  decide +kernel

/-- IdleEngineTakesInputs: each input at an idle PRE. -/
theorem test_wit_idle :
    (nextOf (step { stDc with inbox := [.deliver 3, .await] })).map (fun t => (t.latch, t.inbox)) = some (some 3, [.await]) ∧
    (nextOf (step { stDc with inbox := [.access writeTwice] })).map
      (fun t => (t.mem.read 0x1000, t.mem.read 0x1001, t.mem.read 0x1002, t.inbox)) = some (6, 7, 0, []) ∧
    nextOf (step { stDc with inbox := [.await, .reset] }) = some { stDc with inbox := [.reset] } ∧
    nextOf (step { stDc with inbox := [.reset] }) = some stDc ∧ nextOf (step stDc) = some stDc := by decide +kernel

/-- ConcurrentAccessIsRefused: a write to the footprint, a read of the write footprint, an access beside both,
and a refused command. -/
theorem test_wit_contended :
    refusalOf (step (stBusy [.access writeCoef])) = some .concurrentAccess ∧
    refusalOf (step (stBusy [.access readPixel])) = some .concurrentAccess ∧
    (nextOf (step (stBusy [.access touchElsewhere]))).map
      (fun t => (t.mem.read 0x1002, t.mem.read 0x2004, t.latch.isSome, t.completions)) = some (9, 9, true, 0) ∧
    refusalOf (step { stBusy [.access writeCoef] with latch := some (encode (.itxdc 0x1001 0x2000)) }) =
      some (.misalignedCoef 0x1001) := by decide +kernel

/-- AbandonedCommandMixesOldAndNew: the memories before and after the command differ, whatever the free value. -/
theorem test_wit_abandoned :
    Defined (.itxdc 0x1000 0x2000) (stBusy [.reset]) ∧
    (memAfter (planOf (.itxdc 0x1000 0x2000) stDc.platform) stDc.mem 0).read 0x2000 = 100 ∧
    (memAfter (planOf (.itxdc 0x1000 0x2000) stDc.platform) stDc.mem 1).read 0x2000 = 104 := by decide +kernel

theorem test_wit_abandoned_step :
    (nextOf (step (stBusy [.reset]))).map (fun t => (t.latch, t.completions, t.draws)) = some (none, 0, 1) := by
  have h : verdict (planOf (.itxdc 0x1000 0x2000) stDc.platform) stDc.platform = none := by decide +kernel
  have hd : decode (encode (.itxdc 0x1000 0x2000)) = .ok (.itxdc 0x1000 0x2000) := rfl
  simp only [step, engineStep, stBusy, hd, busyStep, abandon, h, nextOf]
  rfl

/-- ResultsDependOnTheReadFootprint: two memories that differ outside the read footprint. -/
def stDcNoise : State :=
  plain (words 0x1000 [32, 77] ++ cells 0x1FFF [1] ++
    rows 0x2000 32 [List.replicate 8 100, List.replicate 8 100, List.replicate 8 100, List.replicate 8 100])

theorem test_wit_readFootprint :
    stDcNoise.mem ≠ stDc.mem ∧ stDcNoise.platform = stDc.platform ∧
    ∀ a ∈ planReads (planOf (.itxdc 0x1000 0x2000) stDc.platform), stDcNoise.mem.read a.toNat = stDc.mem.read a.toNat := by
  decide +kernel

/-- DeliveredCommandRunsToCompletion: an idle PRE, a delivered command and a wait. -/
def stDeliver : State := { stDc with inbox := [.deliver (encode (.itxdc 0x1000 0x2000)), .await] }

theorem test_wit_delivered :
    stDeliver.latch = none ∧ Defined (.itxdc 0x1000 0x2000) stDeliver ∧
    (nextOf (Host.Core.run Sys2Proof.core 3 stDeliver)).map (fun t => (t.mem.read 0x2000, t.completions, t.inbox)) =
      some (104, 1, []) := by decide +kernel

/-- The test memories are canonical. -/
theorem test_memories_wf :
    [stItx, stTwo, stIwht, stDc, stAc3, stFov, stFiv, stFih, stFoh, stStep, stFohT, stFihT, stLanes, stRowsFoh, stRowsFih, stDcNoise].all
      (fun s => s.mem.wf) = true := by decide +kernel

end Sys2Proof.Tests
end

