-- ==== Sys2Proof/Proofs/Footprint.lean ====
section
/-! PROOFS. A command whose preconditions hold completes, and what it leaves in its write footprint is a
function of its read footprint (10_state R22, 20_memory R34). -/

namespace Sys2Proof.Machine

open Sys2Proof.Safety

/-- A command whose preconditions hold runs all of its units and completes (60_exceptions R149). -/
theorem exec_of_defined {i : Instr} {s : State} (h : Defined i s) :
    exec i s = .next (complete { s with mem := runUnits s.mem (planOf i s.platform).units }) := by
  rw [exec_eq_runCommand]
  exact runCommand_of_verdict_none ((verdict_eq_none_iff _ _).mpr h)

/-- Whether the preconditions hold is a matter of the platform, not of what memory holds. -/
theorem defined_congr {i : Instr} {s s' : State} (hp : s'.platform = s.platform) (h : Defined i s) :
    Defined i s' := by
  rwa [Defined, hp]

/-- A unit that answers the same stores on two memories leaves alike each byte that is alike before or that
it stores to. -/
theorem runUnit_read_congr {m m' : Memory} {u : Memory → List Store} {b : Nat} (hu : u m = u m')
    (hb : m.read b = m'.read b ∨ ∃ w ∈ u m, w.1.toNat = b) :
    (runUnit m u).read b = (runUnit m' u).read b := by
  rw [runUnit, runUnit, ← hu]
  rcases hb with hb | hw
  · exact Memory.read_writeAll_congr _ _ _ _ hb
  · exact Memory.read_writeAll_stored _ _ _ _ hw

/-- Units whose stores are functions of the bytes at `as`, run on two memories that agree there, leave alike
each byte that is alike before or that some unit stores to. -/
theorem runUnits_read_congr {as : List Int} {us : List (Memory → List Store)} {m m' : Memory} {b : Nat}
    (hus : ∀ m m', AgreeOn as m m' → ∀ u ∈ us, u m = u m') (h : AgreeOn as m m')
    (hb : m.read b = m'.read b ∨ ∃ u ∈ us, ∀ m, ∃ w ∈ u m, w.1.toNat = b) :
    (runUnits m us).read b = (runUnits m' us).read b := by
  induction us generalizing m m' with
  | nil => simpa using hb
  | cons u us ih =>
    have hu : u m = u m' := hus m m' h u List.mem_cons_self
    have hagree : AgreeOn as (runUnit m u) (runUnit m' u) :=
      fun a ha => runUnit_read_congr hu (.inl (h a ha))
    rw [runUnits_cons, runUnits_cons]
    refine ih (fun m m' h v hv => hus m m' h v (List.mem_cons_of_mem u hv)) hagree ?_
    rcases hb with hb | ⟨v, hv, hw⟩
    · exact .inl (runUnit_read_congr hu (.inl hb))
    · rcases List.mem_cons.mp hv with rfl | hv
      · exact .inl (runUnit_read_congr hu (.inr (hw m)))
      · exact .inr ⟨v, hv, hw⟩

/-- A command's units, run on two memories that agree on its read footprint, leave them in agreement on its
write footprint. -/
theorem planOf_writes_agree (i : Instr) (pf : Platform) {m m' : Memory}
    (h : AgreeOn (planReads (planOf i pf)) m m') :
    AgreeOn (planOf i pf).writes (runUnits m (planOf i pf).units) (runUnits m' (planOf i pf).units) := by
  intro a ha
  obtain ⟨u, hu, hw⟩ := planOf_covers i pf a ha
  refine runUnits_read_congr (fun _ _ hm => planOf_reads i pf hm) h (.inr ⟨u, hu, fun m => ?_⟩)
  obtain ⟨w, hwm, rfl⟩ := hw m
  exact ⟨w, hwm, rfl⟩

/-- Settles O52: the units read only the read footprint and store to all of the write footprint, and
agreement on the former is kept from one unit to the next. -/
theorem resultsDependOnTheReadFootprint : Obligations.ResultsDependOnTheReadFootprint := by
  intro i s s' hp hd hr
  refine ⟨_, _, exec_of_defined hd, exec_of_defined (defined_congr hp hd), fun a ha => ?_⟩
  rw [hp]
  exact planOf_writes_agree i s.platform hr a ha

end Sys2Proof.Machine
end

