-- ==== Sys2Proof/Proofs/Reset.lean ====
section
/-! PROOFS. The state after reset (10_state R24, 70_reset R156). -/

namespace Sys2Proof.Machine

/-- An idle PRE with no input left stays as it is (log 16). -/
theorem step_of_idle_of_no_input {s : State} (hl : s.latch = none) (hi : s.inbox = []) :
    step s = .next s := by
  simp only [step, engineStep, hl, idleStep, hi]

/-- Settles O49: each field by its value at reset, and the step as that of an idle PRE with no input. -/
theorem resetIsIdle : Obligations.ResetIsIdle :=
  ⟨reset_latch, reset_inbox, reset_mem, rfl, reset_completions, rfl,
    step_of_idle_of_no_input reset_latch reset_inbox⟩

end Sys2Proof.Machine
end

