-- ==== Sys2Proof/Proofs/Steps.lean ====
section
/-! PROOFS. What every step keeps: the canonical form of memory, the launch parameters, and every byte outside
the write footprint of the command it runs or abandons (20_memory R25, R29, R34; 10_state R13). -/

namespace Sys2Proof.Machine

/-- An idle PRE leaves the launch parameters alone, and memory too unless an access lands. -/
theorem idleStep_next {s t : State} (h : idleStep s = .next t) :
    t.platform = s.platform ∧ (t.mem = s.mem ∨ ∃ x, t.mem = (hostAccess x s).mem) := by
  unfold idleStep at h
  split at h <;> cases h
  case h_3 x _ _ => exact ⟨rfl, .inr ⟨x, rfl⟩⟩
  all_goals exact ⟨rfl, .inl rfl⟩

/-- A command answers a next state exactly when its checks pass, and that state is all of its units and
completion. -/
theorem exec_next_iff (i : Instr) (s t : State) :
    exec i s = .next t ↔ verdict (planOf i s.platform) s.platform = none ∧
      t = complete { s with mem := runUnits s.mem (planOf i s.platform).units } := by
  rw [exec_eq_runCommand, runCommand_next_iff]

/-- A command that passes its checks writes inside the address space (20_memory R29). -/
theorem writes_inSpace {p : Plan} {pf : Platform} (h : verdict p pf = none) :
    ∀ a ∈ p.writes, 0 ≤ a ∧ a < 2 ^ 32 := by
  intro a ha
  obtain ⟨-, -, hx, -, -⟩ := (verdict_eq_none_iff p pf).mp h
  obtain ⟨h0, h1, -⟩ := hx a (List.mem_append_left _ (List.mem_append_right _ ha))
  exact ⟨h0, h1⟩

theorem abandonedStores_addr {p : Plan} {s : State} {w : Store} (h : w ∈ abandonedStores p s) :
    w.1 ∈ p.writes := by
  obtain ⟨a, ha, rfl⟩ := List.mem_map.mp h
  exact ha

/-! ## The canonical form -/

theorem hostAccess_wf (x : Access) {s : State} (h : s.mem.wf = true) : (hostAccess x s).mem.wf = true := by
  refine Memory.wf_writeAll _ _ h fun w hw => ?_
  obtain ⟨v, -, rfl⟩ := List.mem_map.mp hw
  exact v.1.isLt

theorem exec_wf {i : Instr} {s t : State} (h : exec i s = .next t) (hm : s.mem.wf = true) :
    t.mem.wf = true := by
  obtain ⟨hv, rfl⟩ := (exec_next_iff i s t).mp h
  exact runUnits_wf _ _ _ hm (planOf_within i s.platform) (writes_inSpace hv)

theorem abandon_wf {p : Plan} {s t : State} (h : abandon p s = .next t) (hm : s.mem.wf = true) :
    t.mem.wf = true := by
  obtain ⟨hv, rfl⟩ := (abandon_next_iff p s t).mp h
  refine Memory.wf_writeAll _ _ hm fun w hw => ?_
  have := writes_inSpace hv _ (abandonedStores_addr hw)
  omega

/-- Settles O50: whichever way a step answers, its stores lie in the address space. -/
theorem stepsKeepMemoryCanonical : Obligations.StepsKeepMemoryCanonical := by
  intro s t hm h
  rcases step_next_cases h with ⟨-, hi⟩ | ⟨_, i, -, -, he⟩ | ⟨_, i, x, rest, -, -, -, hc⟩ |
    ⟨_, i, rest, -, -, -, ha⟩
  · obtain ⟨-, hs | ⟨x, hs⟩⟩ := idleStep_next hi
    · rwa [hs]
    · rw [hs]
      exact hostAccess_wf x hm
  · exact exec_wf he hm
  · obtain ⟨-, -, rfl⟩ := (contend_next_iff _ _ _ _).mp hc
    exact hostAccess_wf x hm
  · exact abandon_wf ha hm

/-! ## The write footprint -/

/-- A command that completes keeps the launch parameters and every byte outside its write footprint. -/
theorem exec_frame {i : Instr} {s t : State} (h : exec i s = .next t) :
    t.platform = s.platform ∧
      ∀ a : Nat, (a : Int) ∉ (planOf i s.platform).writes → t.mem.read a = s.mem.read a := by
  obtain ⟨hv, rfl⟩ := (exec_next_iff i s t).mp h
  exact ⟨rfl, fun a => runUnits_read_other _ _ _ a (planOf_within i s.platform)
    fun x hx => (writes_inSpace hv x hx).1⟩

/-- A command that is abandoned keeps the launch parameters and every byte outside its write footprint. -/
theorem abandon_frame {p : Plan} {s t : State} (h : abandon p s = .next t) :
    t.platform = s.platform ∧ ∀ a : Nat, (a : Int) ∉ p.writes → t.mem.read a = s.mem.read a := by
  obtain ⟨hv, rfl⟩ := (abandon_next_iff p s t).mp h
  refine ⟨rfl, fun a ha => Memory.read_writeAll_other _ _ _ fun w hw e => ha ?_⟩
  have hin := abandonedStores_addr hw
  have := (writes_inSpace hv _ hin).1
  rwa [show (a : Int) = w.1 by omega]

/-- No step changes the launch parameters (10_state R13). -/
theorem step_platform {s t : State} (h : step s = .next t) : t.platform = s.platform := by
  rcases step_next_cases h with ⟨-, hi⟩ | ⟨_, i, -, -, he⟩ | ⟨_, i, x, rest, -, -, -, hc⟩ |
    ⟨_, i, rest, -, -, -, ha⟩
  · exact (idleStep_next hi).1
  · exact (exec_frame he).1
  · obtain ⟨-, -, rfl⟩ := (contend_next_iff _ _ _ _).mp hc
    rfl
  · exact (abandon_frame ha).1

/-- A legal descriptor in the latch makes the step that of a busy PRE (60_exceptions R147). -/
theorem step_of_busy {s : State} {d : Descriptor} {i : Instr} (hl : s.latch = some d) (hd : decode d = .ok i) :
    step s = busyStep i s := by
  simp only [step, engineStep, hl, hd]

/-- A busy PRE whose host's next input is no access runs its command or abandons it. -/
theorem busyStep_next_of_no_access {i : Instr} {s t : State} (h : busyStep i s = .next t)
    (hx : ∀ x rest, s.inbox ≠ .access x :: rest) :
    exec i s = .next t ∨ ∃ rest, abandon (planOf i s.platform) { s with inbox := rest } = .next t := by
  unfold busyStep at h
  split at h
  · exact absurd ‹_› (hx _ _)
  · exact .inr ⟨_, h⟩
  · exact .inl h

/-- Settles O51: a step of a busy PRE without an access runs the command or abandons it, and either stores
inside its write footprint alone. -/
theorem stepsWriteOnlyTheFootprint : Obligations.StepsWriteOnlyTheFootprint := by
  intro s t h
  refine ⟨step_platform h, fun d i hl hd hx => ?_⟩
  rw [step_of_busy hl hd] at h
  rcases busyStep_next_of_no_access h hx with he | ⟨rest, ha⟩
  · exact (exec_frame he).2
  · exact (abandon_frame ha).2

end Sys2Proof.Machine
end

