-- ==== Sys2Proof/Proofs/Contention.lean ====
section
/-! PROOFS. An access of another agent while a command executes (20_memory R41; 60_exceptions R147 (7), R154). -/

namespace Sys2Proof.Machine

open Sys2Proof.Safety

/-- A busy PRE whose host's next input is an access makes check (7) on it. -/
theorem step_of_busy_of_access {s : State} {d : Descriptor} {i : Instr} {x : Access} {rest : List HostEvent}
    (hl : s.latch = some d) (hd : decode d = .ok i) (hx : s.inbox = .access x :: rest) :
    step s = contend (planOf i s.platform) x { s with inbox := rest } := by
  rw [step_of_busy hl hd, busyStep, hx]

theorem contend_of_verdict_some {p : Plan} {x : Access} {s : State} {r : Refusal}
    (h : verdict p s.platform = some r) : contend p x s = .refused r := by
  simp [contend, h]

theorem contend_of_races {p : Plan} {x : Access} {s : State} (h : verdict p s.platform = none)
    (hr : races p x = true) : contend p x s = .refused .concurrentAccess := by
  simp [contend, h, hr]

theorem runCommand_refused_iff (p : Plan) (s : State) (r : Refusal) :
    runCommand p s = .refused r ↔ verdict p s.platform = some r := by
  unfold runCommand
  cases verdict p s.platform <;> simp

theorem races_eq_true_iff (p : Plan) (x : Access) :
    races p x = true ↔ (∃ w ∈ x.writes, zext w.1 ∈ planFootprint p) ∨ ∃ a ∈ x.reads, zext a ∈ p.writes := by
  simp [races]

/-- An access that takes effect lands (70_reset R171). -/
theorem hostAccess_lands (x : Access) (s : State) : AccessLands x s.mem (hostAccess x s).mem := by
  constructor
  · intro before after w hw hlast
    rw [hostAccess_mem, hw, List.map_append, List.map_cons]
    refine Memory.read_writeAll_last _ _ (zext w.1, w.2) _ fun v hv e => ?_
    obtain ⟨u, hu, rfl⟩ := List.mem_map.mp hv
    exact hlast u hu (BitVec.eq_of_toNat_eq e)
  · intro b hb
    refine Memory.read_writeAll_other _ _ _ fun v hv => ?_
    obtain ⟨w, hw, rfl⟩ := List.mem_map.mp hv
    exact hb w hw

/-- What an access that lands leaves alone: every address that it does not write. -/
theorem accessLands_read_other {x : Access} {m m' : Memory} (h : AccessLands x m m') {a : Int} (ha : 0 ≤ a)
    (hx : ∀ w ∈ x.writes, zext w.1 ≠ a) : m'.read a.toNat = m.read a.toNat := by
  refine h.2 _ fun w hw e => hx w hw ?_
  rw [zext]
  omega

/-- Settles O55: the step is `contend`, whose checks are those of `exec`; what it answers then is decided by
`races`. -/
theorem concurrentAccessIsRefused : Obligations.ConcurrentAccessIsRefused := by
  rintro s d i x rest p rfl hl hd hx
  rw [step_of_busy_of_access hl hd hx]
  constructor
  · intro r hr
    rw [exec_eq_runCommand, runCommand_refused_iff] at hr
    exact contend_of_verdict_some hr
  · intro hdef
    have hv : verdict (planOf i s.platform) s.platform = none := (verdict_eq_none_iff _ _).mpr hdef
    refine ⟨fun hr => contend_of_races hv ((races_eq_true_iff _ _).mpr hr), fun hw ha => ?_⟩
    have hr : races (planOf i s.platform) x = false := by
      rw [Bool.eq_false_iff, Ne, races_eq_true_iff]
      rintro (⟨w, hwx, hwf⟩ | ⟨a, hax, haf⟩)
      · exact hw w hwx hwf
      · exact ha a hax haf
    have hlands : AccessLands x s.mem (hostAccess x { s with inbox := rest }).mem := hostAccess_lands x _
    refine ⟨_, (contend_next_iff _ _ _ _).mpr ⟨hv, hr, rfl⟩, rfl, hlands, fun a haf => ?_⟩
    obtain ⟨-, -, hreach, -, -⟩ := hdef
    refine accessLands_read_other hlands (hreach a (List.mem_append_left _ haf)).1 fun w hwx e => ?_
    exact hw w hwx (e ▸ haf)

end Sys2Proof.Machine
end

