-- ==== Sys2Proof/Proofs/Spacing.lean ====
section
/-! PROOFS. The stride bounds are exactly what distinct addresses of distinct sample positions need
(20_memory R35 (a), 90_conflicts C14). -/

namespace Sys2Proof.Machine

/-- A grid of at least two rows of `n` samples, rows `s` apart, has distinct addresses exactly when `s` is at
least `n`: for a smaller `s`, row 1 begins on a sample of row 0. -/
theorem grid_distinct_iff {a s : Int} {n m : Nat} (hs : 0 ≤ s) (hm : 2 ≤ m) :
    (∀ l l' r r' : Nat, l < n → l' < n → r < m → r' < m →
      a + r * s + l = a + r' * s + l' → l = l' ∧ r = r') ↔ (n : Int) ≤ s := by
  constructor
  · intro h
    by_contra hlt
    obtain ⟨-, hr⟩ := h 0 s.toNat 1 0 (by omega) (by omega) (by omega) (by omega) (by omega)
    exact absurd hr Nat.one_ne_zero
  · intro hn l l' r r' hl hl' _ _ h
    have := pitch_inj (x := l) (y := l') (r := r) (q := r') hn (by omega) (by omega) (by linarith)
    omega

/-- The sample positions of FOV's rows: for a smaller stride, tap 1 of lane 0 is tap 0 of lane `s`. -/
theorem tapAddr_down_distinct_iff {a s : Int} (hs : 0 ≤ s) :
    (∀ l l' : Nat, ∀ k ∈ allTaps, ∀ k' ∈ allTaps, l < 16 → l' < 16 →
      tapAddr a s 1 l k = tapAddr a s 1 l' k' → l = l' ∧ k = k') ↔ 16 ≤ s := by
  constructor
  · intro h
    by_contra hlt
    obtain ⟨-, hk⟩ := h 0 s.toNat 1 (by decide) 0 (by decide) (by omega) (by omega)
      (by simp only [tapAddr]; omega)
    exact absurd hk one_ne_zero
  · exact fun hn l l' k _ k' _ hl hl' => tapAddr_inj_down hn hl hl'

/-- The sample positions of FOH's rows: for a smaller stride, the first tap of lane 1 is a tap of lane 0. -/
theorem tapAddr_across_distinct_iff {a s : Int} (hs : 0 ≤ s) :
    (∀ l l' : Nat, ∀ k ∈ allTaps, ∀ k' ∈ allTaps, l < 16 → l' < 16 →
      tapAddr a 1 s l k = tapAddr a 1 s l' k' → l = l' ∧ k = k') ↔ 8 ≤ s := by
  constructor
  · intro h
    by_contra hlt
    obtain ⟨hl, -⟩ := h 1 0 (-4) (by decide) (s - 4) (by simp [allTaps]; omega) (by omega) (by omega)
      (by simp only [tapAddr]; omega)
    exact absurd hl Nat.one_ne_zero
  · exact fun hn l l' k hk k' hk' _ _ => tapAddr_inj_across hn (allTaps_range hk) (allTaps_range hk')

/-- Settles O41: a macroblock and the transforms' regions are grids, FOV's and FOH's rows are taps of an edge. -/
theorem strideBoundsMeanDistinctAddresses : Obligations.StrideBoundsMeanDistinctAddresses := by
  refine ⟨fun a s hs => ⟨tapAddr_down_distinct_iff hs, tapAddr_across_distinct_iff hs,
    grid_distinct_iff hs (by omega)⟩, fun bps b => ⟨?_, ?_⟩⟩
  · exact (grid_distinct_iff (n := 4) (by omega) (by omega)).trans Nat.cast_le
  · exact (grid_distinct_iff (n := 8) (by omega) (by omega)).trans Nat.cast_le

end Sys2Proof.Machine
end

