-- ==== Sys2Proof/Proofs/Coefficients.lean ====
section
/-! PROOFS. The bytes of a coefficient (20_memory R26). -/

namespace Sys2Proof.Machine

/-- A number in 16 bits as two's complement (00_scope R9). -/
theorem sext16_of_lt {v : Int} (h0 : 0 ≤ v) (h : v < 65536) :
    sext 16 v = if v < 32768 then v else v - 65536 := by
  rw [sext, BitVec.toInt_ofInt, Int.bmod_def]
  split_ifs <;> omega

/-- What storing a coefficient leaves in memory: its two bytes, low byte first, and nothing else
(20_memory R26). -/
theorem read_writeAll_memWriteStores_two (m : Memory) {a : Int} (v : Int) (ha : 0 ≤ a) (b : Nat) :
    (m.writeAll (memWriteStores a 2 v)).read b =
      if (b : Int) = a + 1 then BitVec.ofInt 8 (v / 256)
      else if (b : Int) = a then BitVec.ofInt 8 v else m.read b := by
  have hlo : a.toNat = b ↔ (b : Int) = a := by omega
  have hhi : (a + 1).toNat = b ↔ (b : Int) = a + 1 := by omega
  simp only [memWriteStores_two, Memory.writeAll_cons, Memory.writeAll_nil, Memory.read_write, hlo, hhi]

/-- Settles O57: reading by the two bytes of `memRead`, storing by the two stores of `memWriteStores`. -/
theorem coefficientsAreLittleEndian : Obligations.CoefficientsAreLittleEndian := by
  constructor
  · rintro m a lo hi rfl rfl
    have hlo := (m.read a.toNat).isLt
    have hhi := (m.read (a + 1).toNat).isLt
    refine ⟨memRead_two m a, ?_⟩
    rw [coef, memRead_two, sext16_of_lt (by omega) (by omega)]
    split_ifs <;> omega
  · intro m a v ha
    have hread := read_writeAll_memWriteStores_two m v ha
    have h0 : (m.writeAll (memWriteStores a 2 v)).read a.toNat = BitVec.ofInt 8 v := by
      rw [hread, if_neg (by omega), if_pos (by omega)]
    have h1 : (m.writeAll (memWriteStores a 2 v)).read (a + 1).toNat = BitVec.ofInt 8 (v / 256) := by
      rw [hread, if_pos (by omega)]
    refine ⟨?_, ?_, fun b hb hb1 => ?_, coef_of_bytes _ a v h0 h1⟩
    · rw [h0, toNat_ofInt8]
    · rw [h1, toNat_ofInt8]
    · rw [hread, if_neg hb1, if_neg hb]

end Sys2Proof.Machine
end

