-- ==== Sys2Proof/Proofs/PlainMemory.lean ====
section
/-! PROOFS. On a platform where all of memory is ordinary, a command completes as soon as its coefficients and
its pixels lie in two runs of addresses that end inside the space and are apart (20_memory R28, R29, R35). -/

namespace Sys2Proof.Machine

open Sys2Proof.Safety

/-! ## Runs of addresses that hold a footprint -/

/-- All the addresses lie in `[lo, hi)`. -/
def Within (as : List Int) (lo hi : Int) : Prop := ∀ a ∈ as, lo ≤ a ∧ a < hi

theorem within_nil (lo hi : Int) : Within [] lo hi := fun _ ha => absurd ha List.not_mem_nil

theorem within_append {as bs : List Int} {lo hi : Int} (ha : Within as lo hi) (hb : Within bs lo hi) :
    Within (as ++ bs) lo hi := fun x hx => (List.mem_append.mp hx).elim (ha x) (hb x)

theorem within_flatMap {α : Type} {es : List α} {f : α → List Int} {lo hi : Int}
    (h : ∀ e ∈ es, Within (f e) lo hi) : Within (es.flatMap f) lo hi := by
  intro x hx
  obtain ⟨e, he, hxe⟩ := List.mem_flatMap.mp hx
  exact h e he x hxe

theorem Within.mono {as : List Int} {lo hi lo' hi' : Int} (h : Within as lo hi) (hlo : lo' ≤ lo)
    (hhi : hi ≤ hi') : Within as lo' hi' :=
  fun x hx => ⟨hlo.trans (h x hx).1, (h x hx).2.trans_le hhi⟩

theorem within_span (a : Int) (n : Nat) : Within (span a n) a (a + n) := fun x => (mem_span a x n).mp

/-- A 4x4 region ends 4 bytes into its last row (20_memory R31). -/
theorem within_blkAddrs (bps : Nat) (b : Int) : Within (blkAddrs bps b) b (b + 3 * bps + 4) := by
  intro p hp
  obtain ⟨y, hy, x, hx, rfl⟩ := (mem_blkAddrs _ _ _).mp hp
  have hlo : 0 ≤ (y : Int) * bps := by positivity
  have hhi : (y : Int) * bps ≤ 3 * bps := mul_le_mul_of_nonneg_right (by omega) (by omega)
  rw [pixAddr]
  constructor <;> omega

/-- The region of ITX: one 4x4 region, or two side by side (41_inverse_transform R90). -/
theorem within_itxRegion (two : Bool) (bps : Nat) (b : Int) :
    Within (if two then blkAddrs bps b ++ blkAddrs bps (b + 4) else blkAddrs bps b) b
      (b + 3 * bps + (if two then 8 else 4 : Nat)) := by
  cases two
  · exact within_blkAddrs bps b
  · exact within_append ((within_blkAddrs bps b).mono le_rfl (by simp))
      ((within_blkAddrs bps (b + 4)).mono (by omega) (by simp; omega))

/-- The outputs of IWHT: the last is 480 bytes into the array (20_memory R32). -/
theorem within_outAddrs (b : Int) :
    Within ((List.range 16).flatMap fun i => span (outAddr b i) 2) b (b + 482) := by
  refine within_flatMap fun i hi => ?_
  have hi16 : i < 16 := List.mem_range.mp hi
  exact (within_span (outAddr b i) 2).mono (by rw [outAddr]; omega) (by rw [outAddr]; omega)

/-- An edge across rows `s` apart: from the first sample four rows above to the last sample three rows below
(20_memory R33). -/
theorem within_edge_down {e0 s : Int} (hs : 0 ≤ s) :
    Within (edgeAddrs e0 s 1 allTaps) (e0 - 4 * s) (e0 + 3 * s + 16) := by
  intro p hp
  obtain ⟨l, hl, k, hk, rfl⟩ := (mem_edgeAddrs _ _ _ _ _).mp hp
  obtain ⟨hk0, hk1⟩ := allTaps_range hk
  have hlo : -4 * s ≤ k * s := mul_le_mul_of_nonneg_right hk0 hs
  have hhi : k * s ≤ 3 * s := mul_le_mul_of_nonneg_right hk1 hs
  rw [tapAddr]
  constructor <;> omega

/-- An edge across columns, in 16 rows `s` apart (20_memory R33). -/
theorem within_edge_across {e0 s : Int} (hs : 0 ≤ s) :
    Within (edgeAddrs e0 1 s allTaps) (e0 - 4) (e0 + 15 * s + 4) := by
  intro p hp
  obtain ⟨l, hl, k, hk, rfl⟩ := (mem_edgeAddrs _ _ _ _ _).mp hp
  obtain ⟨hk0, hk1⟩ := allTaps_range hk
  have hlo : 0 ≤ (l : Int) * s := by positivity
  have hhi : (l : Int) * s ≤ 15 * s := mul_le_mul_of_nonneg_right (by omega) hs
  rw [tapAddr]
  constructor <;> omega

theorem within_edges_down {e0s : List Int} {s : Int} (hs : 0 ≤ s)
    (h : ∀ e0 ∈ e0s, 4 * s ≤ e0 ∧ e0 + 3 * s + 16 ≤ 2 ^ 32) :
    ∀ e0 ∈ e0s, Within (edgeAddrs e0 s 1 allTaps) 0 (2 ^ 32) := fun e0 he0 =>
  (within_edge_down hs).mono (sub_nonneg.mpr (h e0 he0).1) (h e0 he0).2

theorem within_edges_across {e0s : List Int} {s : Int} (hs : 0 ≤ s)
    (h : ∀ e0 ∈ e0s, 4 ≤ e0 ∧ e0 + 15 * s + 4 ≤ 2 ^ 32) :
    ∀ e0 ∈ e0s, Within (edgeAddrs e0 1 s allTaps) 0 (2 ^ 32) := fun e0 he0 =>
  (within_edge_across hs).mono (sub_nonneg.mpr (h e0 he0).1) (h e0 he0).2

/-! ## Completion -/

/-- The platform's map of plain memory: every address of the space, none of them a device. -/
theorem admits_plain {pf : Platform} (h : pf.map = [⟨0, 2 ^ 32, .ram⟩]) {a : Int} (ha : 0 ≤ a ∧ a < 2 ^ 32) :
    admits pf a = true := by
  simpa [admits, h, regionHolds] using ha

theorem isDevice_plain {pf : Platform} (h : pf.map = [⟨0, 2 ^ 32, .ram⟩]) (a : Int) : isDevice pf a = false := by
  simp [isDevice, h]

/-- A command's coefficients read lie in `[cl, ch)`, its pixels and the bytes it writes in `[wl, wh)`, and the
two runs and the coefficient arrays lie inside the space, the runs apart. -/
structure LaidApart (p : Plan) (cl ch wl wh : Int) : Prop where
  arrays : Within p.arrays 0 (2 ^ 32)
  coefs : Within p.coefReads cl ch
  pixels : Within p.pixReads wl wh
  writes : Within p.writes wl wh
  coefRun : 0 ≤ cl ∧ ch ≤ 2 ^ 32
  pixelRun : 0 ≤ wl ∧ wh ≤ 2 ^ 32
  apart : ch ≤ wl ∨ wh ≤ cl

theorem LaidApart.extent {p : Plan} {cl ch wl wh : Int} (h : LaidApart p cl ch wl wh) :
    Within (planExtent p) 0 (2 ^ 32) :=
  within_append
    (within_append
      (within_append (h.coefs.mono h.coefRun.1 h.coefRun.2) (h.pixels.mono h.pixelRun.1 h.pixelRun.2))
      (h.writes.mono h.pixelRun.1 h.pixelRun.2))
    h.arrays

theorem LaidApart.no_clash {p : Plan} {cl ch wl wh : Int} (h : LaidApart p cl ch wl wh) :
    ∀ a ∈ p.coefReads, a ∉ p.writes := by
  intro a hc hw
  have hcoef := h.coefs a hc
  have hwrite := h.writes a hw
  have hapart := h.apart
  omega

/-- In plain memory a command laid out in two runs that are apart completes, once BPS, its alignment and its
spacing are good. -/
theorem exec_next_of_laidApart {i : Instr} {s : State} {cl ch wl wh : Int}
    (hmap : s.platform.map = [⟨0, 2 ^ 32, .ram⟩]) (hbps : GoodParameter (planOf i s.platform) s.platform)
    (heven : Aligned (planOf i s.platform)) (hspaced : (planOf i s.platform).spaced = true)
    (h : LaidApart (planOf i s.platform) cl ch wl wh) : ∃ t, exec i s = .next t := by
  have hreach : Reachable (planOf i s.platform) s.platform := fun a ha =>
    have hin := h.extent a ha
    ⟨hin.1, hin.2, admits_plain hmap hin⟩
  exact ⟨_, exec_of_defined ⟨hbps, heven, hreach, ⟨hspaced, h.no_clash⟩, fun a _ => isDevice_plain hmap a⟩⟩

/-- In plain memory a filter command whose positions are apart completes if the samples of its edges lie inside
the space. -/
theorem exec_next_of_edges {i : Instr} {s : State} {e0s : List Int} {st ln : Int} {k : EdgeKernel}
    {lim : Limits} {spaced : Bool} (hp : planOf i s.platform = edgePlan e0s st ln k lim spaced)
    (hmap : s.platform.map = [⟨0, 2 ^ 32, .ram⟩]) (hspaced : spaced = true)
    (hedges : ∀ e0 ∈ e0s, Within (edgeAddrs e0 st ln allTaps) 0 (2 ^ 32)) :
    ∃ t, exec i s = .next t := by
  refine exec_next_of_laidApart (cl := 0) (ch := 0) (wl := 0) (wh := 2 ^ 32) hmap ?_ ?_ ?_ ?_ <;> rw [hp]
  · exact fun h => by cases h
  · exact fun _ ha => absurd ha List.not_mem_nil
  · exact hspaced
  · exact
      { arrays := within_nil _ _
        coefs := within_nil _ _
        pixels := within_flatMap hedges
        writes := within_flatMap fun e0 he0 a ha => hedges e0 he0 a (edgeAddrs_kernelTaps_subset _ _ _ _ a ha)
        coefRun := by decide
        pixelRun := by decide
        apart := .inl le_rfl }

/-- Settles O44: the condition puts every edge of the command inside the space. -/
theorem filtersCompleteInPlainMemory : Obligations.FiltersCompleteInPlainMemory := by
  intro a sd elim ilim hevt s hmap
  have ha : (a.toNat : Int) = zext a := rfl
  have hs : (sd.toNat : Int) = zext sd := rfl
  refine ⟨fun hsd hstart hend => ?fov, fun hsd hstart hend => ?foh, fun hsd hend => ⟨?fiv, ?fih⟩⟩
  case fov =>
    refine exec_next_of_edges rfl hmap (decide_eq_true (by omega)) (within_edges_down (by omega) ?_)
    simp only [List.forall_mem_singleton]
    omega
  case foh =>
    refine exec_next_of_edges rfl hmap (decide_eq_true (by omega)) (within_edges_across (by omega) ?_)
    simp only [List.forall_mem_singleton]
    omega
  case fiv =>
    refine exec_next_of_edges rfl hmap (decide_eq_true (by omega)) (within_edges_down (by omega) fun e0 he0 => ?_)
    simp only [List.mem_cons, List.not_mem_nil, or_false] at he0
    omega
  case fih =>
    refine exec_next_of_edges rfl hmap (decide_eq_true (by omega)) (within_edges_across (by omega) fun e0 he0 => ?_)
    simp only [List.mem_cons, List.not_mem_nil, or_false] at he0
    omega

/-- Settles O43: the array and the region, or the input and the outputs, are the two runs. -/
theorem transformsCompleteInPlainMemory : Obligations.TransformsCompleteInPlainMemory := by
  intro a b s hmap heven
  have ha : (a.toNat : Int) = zext a := rfl
  have hb : (b.toNat : Int) = zext b := rfl
  have heven_a : ∀ x ∈ [zext a], x % 2 = 0 := by
    simp only [List.forall_mem_singleton]
    omega
  refine ⟨fun two hbps hca hcb hapart => ?itx, fun hbe hca hcb hapart => ?iwht,
    fun hbps hca hcb => ⟨fun hapart => ?itxdc, fun hapart => ?itxac3⟩⟩
  case itx =>
    have harray : Within (span (zext a) (if two then 64 else 32)) 0 (2 ^ 32) :=
      (within_span _ _).mono (by omega) (by omega)
    have hregion := within_itxRegion two s.platform.bps (zext b)
    have hwidth : (if two then 8 else 4) ≤ 8 := by cases two <;> decide
    exact exec_next_of_laidApart hmap (fun _ => hbps) heven_a (decide_eq_true (hwidth.trans hbps))
      ⟨harray, within_span _ _, hregion, hregion, by omega, by omega, by omega⟩
  case iwht =>
    have harrays : Within (span (zext a) 32 ++ span (zext b) 512) 0 (2 ^ 32) :=
      within_append ((within_span _ _).mono (by omega) (by omega))
        ((within_span _ _).mono (by omega) (by omega))
    have heven_ab : ∀ x ∈ [zext a, zext b], x % 2 = 0 := by
      intro x hx
      simp only [List.mem_cons, List.not_mem_nil, or_false] at hx
      omega
    exact exec_next_of_laidApart hmap (fun h => by cases h) heven_ab rfl
      ⟨harrays, within_span _ _, within_nil _ _, within_outAddrs _, by omega, by omega, by omega⟩
  case itxdc =>
    have harray : Within (span (zext a) 32) 0 (2 ^ 32) := (within_span _ _).mono (by omega) (by omega)
    have hblk := within_blkAddrs s.platform.bps (zext b)
    exact exec_next_of_laidApart hmap (fun _ => hbps) heven_a (decide_eq_true (by omega))
      ⟨harray, within_span _ _, hblk, hblk, by omega, by omega, by omega⟩
  case itxac3 =>
    have harray : Within (span (zext a) 32) 0 (2 ^ 32) := (within_span _ _).mono (by omega) (by omega)
    have hcoef : Within (span (zext a) 4 ++ span (zext a + 8) 2) (zext a) (zext a + 10) :=
      within_append ((within_span _ _).mono (by omega) (by omega))
        ((within_span _ _).mono (by omega) (by omega))
    have hblk := within_blkAddrs s.platform.bps (zext b)
    exact exec_next_of_laidApart hmap (fun _ => hbps) heven_a (decide_eq_true (by omega))
      ⟨harray, hcoef, hblk, hblk, by omega, by omega, by omega⟩

end Sys2Proof.Machine
end

