-- ==== Sys2Proof/Proofs/Descriptor.lean ====
section
/-! PROOFS. The ten fields of a descriptor: read from its six words, from packed fields and from a masked
descriptor, and together the whole descriptor (30_encoding R46, R47). -/

namespace Sys2Proof

/-! ## The fields of six words -/

section
variable (w0 w1 w2 w3 w4 w5 : Word)

@[simp] theorem ofWords_op : (Descriptor.ofWords w0 w1 w2 w3 w4 w5).op = w0.extractLsb' 0 8 :=
  BitVec.extractLsb'_append_eq_of_add_le (by decide)

@[simp] theorem ofWords_two : (Descriptor.ofWords w0 w1 w2 w3 w4 w5).two = w0.getLsbD 8 := by
  simp only [Descriptor.two, Descriptor.ofWords, BitVec.getLsbD_append]
  simp

@[simp] theorem ofWords_rsv0 : (Descriptor.ofWords w0 w1 w2 w3 w4 w5).rsv0 = w0.extractLsb' 9 23 :=
  BitVec.extractLsb'_append_eq_of_add_le (by decide)

@[simp] theorem ofWords_a : (Descriptor.ofWords w0 w1 w2 w3 w4 w5).a = w1 := by
  rw [Descriptor.a, Descriptor.ofWords]
  repeat rw [BitVec.extractLsb'_append_eq_of_le (by decide)]
  exact BitVec.extractLsb'_append_eq_right

@[simp] theorem ofWords_b : (Descriptor.ofWords w0 w1 w2 w3 w4 w5).b = w2 := by
  rw [Descriptor.b, Descriptor.ofWords]
  repeat rw [BitVec.extractLsb'_append_eq_of_le (by decide)]
  exact BitVec.extractLsb'_append_eq_right

@[simp] theorem ofWords_stride : (Descriptor.ofWords w0 w1 w2 w3 w4 w5).stride = w3 := by
  rw [Descriptor.stride, Descriptor.ofWords]
  repeat rw [BitVec.extractLsb'_append_eq_of_le (by decide)]
  exact BitVec.extractLsb'_append_eq_right

@[simp] theorem ofWords_elim : (Descriptor.ofWords w0 w1 w2 w3 w4 w5).elim = w4.extractLsb' 0 16 := by
  rw [Descriptor.elim, Descriptor.ofWords]
  repeat rw [BitVec.extractLsb'_append_eq_of_le (by decide)]
  exact BitVec.extractLsb'_append_eq_of_add_le (by decide)

@[simp] theorem ofWords_ilim : (Descriptor.ofWords w0 w1 w2 w3 w4 w5).ilim = w4.extractLsb' 16 16 := by
  rw [Descriptor.ilim, Descriptor.ofWords]
  repeat rw [BitVec.extractLsb'_append_eq_of_le (by decide)]
  exact BitVec.extractLsb'_append_eq_of_add_le (by decide)

@[simp] theorem ofWords_hevt : (Descriptor.ofWords w0 w1 w2 w3 w4 w5).hevt = w5.extractLsb' 0 16 := by
  rw [Descriptor.hevt, Descriptor.ofWords]
  repeat rw [BitVec.extractLsb'_append_eq_of_le (by decide)]

@[simp] theorem ofWords_rsv5 : (Descriptor.ofWords w0 w1 w2 w3 w4 w5).rsv5 = w5.extractLsb' 16 16 := by
  rw [Descriptor.rsv5, Descriptor.ofWords]
  repeat rw [BitVec.extractLsb'_append_eq_of_le (by decide)]

end

/-- Settles O5, field by field. -/
theorem descriptorFieldsOfWords : Obligations.DescriptorFieldsOfWords := by
  unfold Obligations.DescriptorFieldsOfWords
  intro w0 w1 w2 w3 w4 w5
  exact ⟨ofWords_op .., ofWords_two .., ofWords_rsv0 .., ofWords_a .., ofWords_b .., ofWords_stride ..,
    ofWords_elim .., ofWords_ilim .., ofWords_hevt .., ofWords_rsv5 ..⟩

/-! ## The fields that `pack` fixes beside the operands -/

section
variable (op : Byte) (two : Bool) (a b s : Word) (e i h : Half)

@[simp] theorem pack_op : (pack op two a b s e i h).op = op := BitVec.extractLsb'_append_eq_right

@[simp] theorem pack_rsv0 : (pack op two a b s e i h).rsv0 = 0 := by
  rw [Descriptor.rsv0, pack]
  repeat rw [BitVec.extractLsb'_append_eq_of_le (by decide)]
  exact BitVec.extractLsb'_append_eq_right

@[simp] theorem pack_rsv5 : (pack op two a b s e i h).rsv5 = 0 := by
  rw [Descriptor.rsv5, pack]
  repeat rw [BitVec.extractLsb'_append_eq_of_le (by decide)]
  exact BitVec.extractLsb'_zero

end

/-! ## The fields of a masked descriptor -/

section
variable (d m : Descriptor)

@[simp] theorem and_op : (d &&& m).op = d.op &&& m.op := BitVec.extractLsb'_and
@[simp] theorem and_two : (d &&& m).two = (d.two && m.two) := BitVec.getLsbD_and
@[simp] theorem and_rsv0 : (d &&& m).rsv0 = d.rsv0 &&& m.rsv0 := BitVec.extractLsb'_and
@[simp] theorem and_a : (d &&& m).a = d.a &&& m.a := BitVec.extractLsb'_and
@[simp] theorem and_b : (d &&& m).b = d.b &&& m.b := BitVec.extractLsb'_and
@[simp] theorem and_stride : (d &&& m).stride = d.stride &&& m.stride := BitVec.extractLsb'_and
@[simp] theorem and_elim : (d &&& m).elim = d.elim &&& m.elim := BitVec.extractLsb'_and
@[simp] theorem and_ilim : (d &&& m).ilim = d.ilim &&& m.ilim := BitVec.extractLsb'_and
@[simp] theorem and_hevt : (d &&& m).hevt = d.hevt &&& m.hevt := BitVec.extractLsb'_and
@[simp] theorem and_rsv5 : (d &&& m).rsv5 = d.rsv5 &&& m.rsv5 := BitVec.extractLsb'_and

end

/-! ## The whole descriptor -/

/-- One bit, as the field of width 1 that it is. -/
theorem ofBool_getLsbD {n : Nat} (x : BitVec n) (k : Nat) : BitVec.ofBool (x.getLsbD k) = x.extractLsb' k 1 := by
  ext j hj
  obtain rfl : j = 0 := by omega
  simp

/-- A descriptor is its ten fields in their order (30_encoding R46). -/
theorem append_fields (d : Descriptor) :
    d.rsv5 ++ d.hevt ++ d.ilim ++ d.elim ++ d.stride ++ d.b ++ d.a ++ d.rsv0 ++ BitVec.ofBool d.two ++ d.op = d := by
  rw [Descriptor.two, ofBool_getLsbD, Descriptor.rsv5, Descriptor.hevt, Descriptor.ilim, Descriptor.elim,
    Descriptor.stride, Descriptor.b, Descriptor.a, Descriptor.rsv0, Descriptor.op]
  repeat rw [BitVec.extractLsb'_append_extractLsb'_eq_extractLsb' (by decide)]
  exact BitVec.extractLsb'_eq_self

/-- Two descriptors are equal exactly when their ten fields are (30_encoding R46). -/
theorem descriptor_eq_iff (d d' : Descriptor) :
    d = d' ↔ d.op = d'.op ∧ d.two = d'.two ∧ d.rsv0 = d'.rsv0 ∧ d.a = d'.a ∧ d.b = d'.b ∧
      d.stride = d'.stride ∧ d.elim = d'.elim ∧ d.ilim = d'.ilim ∧ d.hevt = d'.hevt ∧ d.rsv5 = d'.rsv5 := by
  constructor
  · rintro rfl
    exact ⟨rfl, rfl, rfl, rfl, rfl, rfl, rfl, rfl, rfl, rfl⟩
  · rintro ⟨hop, htwo, hrsv0, ha, hb, hs, he, hi, hh, hrsv5⟩
    rw [← append_fields d, ← append_fields d', hop, htwo, hrsv0, ha, hb, hs, he, hi, hh, hrsv5]

end Sys2Proof
end

