-- ==== Sys2Proof/Proofs/Decoding.lean ====
section
/-! PROOFS. The decoder and the encoder (30_encoding R49 to R57). -/

namespace Sys2Proof

/-! ## The rows of the opcode map -/

/-- The operation code of a row: the low byte of its match word (30_encoding R50). -/
def OpRow.code (r : OpRow) : Byte := r.matchW0.extractLsb' 0 8

theorem codes_eq : opcodeTable.map OpRow.code = [0x01, 0x02, 0x03, 0x04, 0x08, 0x09, 0x0A, 0x0B] := rfl

theorem codes_nodup : (opcodeTable.map OpRow.code).Nodup := by
  rw [codes_eq]
  decide

/-- The rows have different codes (30_encoding R50). -/
theorem code_injOn {r r' : OpRow} (hr : r ∈ opcodeTable) (hr' : r' ∈ opcodeTable) (h : r.code = r'.code) :
    r = r' :=
  List.inj_on_of_nodup_map codes_nodup hr hr' h

/-- A row masks nothing of OP and RSV0, and masks TWO out exactly if it is that of ITX (30_encoding R50). -/
theorem row_fields : ∀ r ∈ opcodeTable,
    r.matchW0.extractLsb' 9 23 = 0 ∧ r.maskW0.extractLsb' 9 23 = BitVec.allOnes 23 ∧
      r.matchW0.getLsbD 8 = false ∧ r.maskW0.getLsbD 8 = decide (r.code ≠ 0x01) ∧
      r.maskW0.extractLsb' 0 8 = BitVec.allOnes 8 := by decide

/-- W0 is its fields RSV0, TWO and OP (30_encoding R46). -/
theorem append_word0_fields (w : Word) :
    w.extractLsb' 9 23 ++ BitVec.ofBool (w.getLsbD 8) ++ w.extractLsb' 0 8 = w := by
  rw [ofBool_getLsbD]
  repeat rw [BitVec.extractLsb'_append_extractLsb'_eq_extractLsb' (by decide)]
  exact BitVec.extractLsb'_eq_self

theorem word0_eq_iff (v w : Word) : v = w ↔
    v.extractLsb' 9 23 = w.extractLsb' 9 23 ∧ v.getLsbD 8 = w.getLsbD 8 ∧ v.extractLsb' 0 8 = w.extractLsb' 0 8 := by
  constructor
  · rintro rfl
    exact ⟨rfl, rfl, rfl⟩
  · rintro ⟨hrsv, htwo, hop⟩
    rw [← append_word0_fields v, ← append_word0_fields w, hrsv, htwo, hop]

theorem word0_rsv0 (d : Descriptor) : (d.word 0).extractLsb' 9 23 = d.rsv0 :=
  BitVec.extractLsb'_extractLsb'_of_le (by decide)

theorem word0_two (d : Descriptor) : (d.word 0).getLsbD 8 = d.two := by
  simp [Descriptor.word, Descriptor.two]

theorem word0_op (d : Descriptor) : (d.word 0).extractLsb' 0 8 = d.op :=
  BitVec.extractLsb'_extractLsb'_of_le (by decide)

/-- A row selects a descriptor exactly when OP is the row's code, RSV0 is zero, and TWO is clear or the row is
that of ITX (30_encoding R50). -/
theorem selects_iff {r : OpRow} (hr : r ∈ opcodeTable) (d : Descriptor) :
    r.selects d = true ↔ d.rsv0 = 0 ∧ (d.two = true → r.code = 0x01) ∧ d.op = r.code := by
  obtain ⟨hrsv, hrsvMask, htwo, htwoMask, hopMask⟩ := row_fields r hr
  rw [selects_eq, beq_iff_eq, word0_eq_iff, BitVec.extractLsb'_and, BitVec.extractLsb'_and, BitVec.getLsbD_and,
    word0_rsv0, word0_two, word0_op, hrsv, hrsvMask, htwo, htwoMask, hopMask, BitVec.and_allOnes,
    BitVec.and_allOnes, OpRow.code]
  simp

/-! ## The row that decides -/

/-- Two rows that select one descriptor both have its OP for their code (30_encoding R51). -/
theorem selects_unique {r r' : OpRow} (hr : r ∈ opcodeTable) (hr' : r' ∈ opcodeTable) {d : Descriptor}
    (h : r.selects d = true) (h' : r'.selects d = true) : r = r' := by
  obtain ⟨-, -, hop⟩ := (selects_iff hr d).mp h
  obtain ⟨-, -, hop'⟩ := (selects_iff hr' d).mp h'
  exact code_injOn hr hr' (hop.symm.trans hop')

theorem decode_of_selects {r : OpRow} (hr : r ∈ opcodeTable) {d : Descriptor} (h : r.selects d = true) :
    decode d = .ok (r.operands d) := by
  have hnodup : (opcodeTable.filter (fun r => r.selects d)).Nodup := (List.Nodup.of_map _ codes_nodup).filter _
  refine decode_of_filter (List.perm_singleton.mp ((List.perm_ext_iff_of_nodup hnodup (List.nodup_singleton r)).mpr
    fun r' => ?_))
  rw [List.mem_filter, List.mem_singleton]
  exact ⟨fun ⟨hr', h'⟩ => selects_unique hr' hr h' h, fun e => e ▸ ⟨hr, h⟩⟩

theorem decode_of_not_selects {d : Descriptor} (h : ∀ r ∈ opcodeTable, r.selects d = false) :
    decode d = .error (illegalReason d) := by
  have hnil : opcodeTable.filter (fun r => r.selects d) = [] :=
    List.filter_eq_nil_iff.mpr fun r hr => Bool.eq_false_iff.mp (h r hr)
  simp only [decode, hnil]

/-- Settles O3: the codes of the rows differ, so at most one row selects a descriptor. -/
theorem decodeSelectsTheOneMatchingRow : Obligations.DecodeSelectsTheOneMatchingRow :=
  ⟨rfl, fun _ _ hr => decode_of_selects hr, fun _ _ hr _ hr' => selects_unique hr hr',
    fun _ h => ⟨_, decode_of_not_selects h⟩⟩

/-- A descriptor decodes to what some row that selects it extracts (30_encoding R51). -/
theorem decode_eq_ok_iff (d : Descriptor) (i : Instr) :
    decode d = .ok i ↔ ∃ r ∈ opcodeTable, r.selects d = true ∧ r.operands d = i := by
  constructor
  · intro h
    by_cases hs : ∃ r ∈ opcodeTable, r.selects d = true
    · obtain ⟨r, hr, hs⟩ := hs
      rw [decode_of_selects hr hs] at h
      exact ⟨r, hr, hs, Except.ok.inj h⟩
    · rw [decode_of_not_selects (by simpa using hs)] at h
      cases h
  · rintro ⟨r, hr, hs, rfl⟩
    exact decode_of_selects hr hs

/-- A descriptor is illegal exactly when no row selects it (30_encoding R51). -/
theorem decode_eq_error_iff (d : Descriptor) :
    (∃ e, decode d = .error e) ↔ ¬∃ r ∈ opcodeTable, r.selects d = true := by
  constructor
  · rintro ⟨e, he⟩ ⟨r, hr, hs⟩
    rw [decode_of_selects hr hs] at he
    cases he
  · intro h
    exact ⟨_, decode_of_not_selects (by simpa using h)⟩

/-- Some row selects a descriptor exactly when OP is a row's code, RSV0 is zero, and TWO is clear or OP is ITX's. -/
theorem exists_selects_iff (d : Descriptor) : (∃ r ∈ opcodeTable, r.selects d = true) ↔
    d.op ∈ opcodeTable.map OpRow.code ∧ d.rsv0 = 0 ∧ (d.two = true → d.op = 0x01) := by
  constructor
  · rintro ⟨r, hr, hs⟩
    obtain ⟨hrsv, htwo, hop⟩ := (selects_iff hr d).mp hs
    exact ⟨hop ▸ List.mem_map_of_mem hr, hrsv, hop ▸ htwo⟩
  · rintro ⟨hop, hrsv, htwo⟩
    obtain ⟨r, hr, hc⟩ := List.mem_map.mp hop
    exact ⟨r, hr, (selects_iff hr d).mpr ⟨hrsv, hc ▸ htwo, hc.symm⟩⟩

/-- Settles O4: the negation of what it takes for a row to select the descriptor. -/
theorem illegalDescriptorsAreThese : Obligations.IllegalDescriptorsAreThese := by
  intro d
  rw [decode_eq_error_iff, exists_selects_iff, codes_eq]
  tauto

/-! ## The encoder -/

theorem rowOf_mem (i : Instr) : rowOf i ∈ opcodeTable := by
  cases i <;> simp [rowOf, opcodeTable]

/-- A row builds commands of its own kind alone. -/
theorem rowOf_operands : ∀ r ∈ opcodeTable, ∀ d, rowOf (r.operands d) = r := by
  simp only [opcodeTable, List.forall_mem_cons]
  exact ⟨fun _ => rfl, fun _ => rfl, fun _ => rfl, fun _ => rfl, fun _ => rfl, fun _ => rfl, fun _ => rfl,
    fun _ => rfl, nofun⟩

/-- The only row that can give a command is the command's own. -/
theorem decode_eq_ok_iff_rowOf (d : Descriptor) (i : Instr) :
    decode d = .ok i ↔ (rowOf i).selects d = true ∧ (rowOf i).operands d = i := by
  rw [decode_eq_ok_iff]
  constructor
  · rintro ⟨r, hr, hs, rfl⟩
    rw [rowOf_operands r hr]
    exact ⟨hs, rfl⟩
  · exact fun h => ⟨rowOf i, rowOf_mem i, h⟩

/-- A mask of ones keeps the field it covers. -/
theorem and_eq_self_of_allOnes {n : Nat} {m : BitVec n} (h : m = BitVec.allOnes n) (x : BitVec n) : x &&& m = x := by
  rw [h, BitVec.and_allOnes]

/-- What is left of a descriptor under the mask of a transform is the encoding of one exactly when OP, TWO, RSV0,
A and B are (30_encoding R49). -/
theorem and_transformMask_eq_pack_iff (d : Descriptor) (op : Byte) (two : Bool) (a b : Word) :
    d &&& Descriptor.ofWords 0xFFFFFFFF 0xFFFFFFFF 0xFFFFFFFF 0 0 0 = pack op two a b 0 0 0 0 ↔
      (d.op = op ∧ d.two = two ∧ d.rsv0 = 0) ∧ d.a = a ∧ d.b = b := by
  rw [descriptor_eq_iff]
  simp (disch := decide) [and_eq_self_of_allOnes, pack_two, and_assoc]

/-- The same of a filter, with A, STRIDE and the limits (30_encoding R49). -/
theorem and_filterMask_eq_pack_iff (d : Descriptor) (op : Byte) (a s : Word) (e i h : Half) :
    d &&& Descriptor.ofWords 0xFFFFFFFF 0xFFFFFFFF 0 0xFFFFFFFF 0xFFFFFFFF 0x0000FFFF =
        pack op false a 0 s e i h ↔
      (d.op = op ∧ d.two = false ∧ d.rsv0 = 0) ∧ d.a = a ∧ d.stride = s ∧ d.elim = e ∧ d.ilim = i ∧ d.hevt = h := by
  rw [descriptor_eq_iff]
  simp (disch := decide) [and_eq_self_of_allOnes, pack_two, and_assoc]

/-- An encoding has no bit outside the fields its command uses (30_encoding R55). -/
theorem encode_and_usedMask (i : Instr) : encode i &&& usedMask i = encode i := by
  cases i
  case itx | iwht | itxdc | itxac3 => exact (and_transformMask_eq_pack_iff ..).mpr (by simp [encode, pack_two])
  case fov | foh | fiv | fih => exact (and_filterMask_eq_pack_iff ..).mpr (by simp [encode, pack_two])

/-- The used bits are those of the encoding exactly when the command's row selects the descriptor and extracts the
command's operands (30_encoding R49, R50). -/
theorem and_usedMask_eq_encode_iff (d : Descriptor) (i : Instr) :
    d &&& usedMask i = encode i ↔ (rowOf i).selects d = true ∧ (rowOf i).operands d = i := by
  rw [selects_iff (rowOf_mem i)]
  cases i
  case itx | iwht | itxdc | itxac3 =>
    rw [usedMask, encode, and_transformMask_eq_pack_iff]
    simp [rowOf, rowItx, rowIwht, rowItxdc, rowItxac3, OpRow.code, and_comm, and_left_comm, and_assoc]
  case fov | foh | fiv | fih =>
    rw [usedMask, encode, and_filterMask_eq_pack_iff]
    simp [rowOf, rowFov, rowFoh, rowFiv, rowFih, OpRow.code, and_comm, and_left_comm, and_assoc]

/-- Settles O2: the row of `i` decides, and what it selects and extracts is what the mask keeps. -/
theorem decodeReadsExactlyTheUsedFields : Obligations.DecodeReadsExactlyTheUsedFields := by
  intro d i
  rw [decode_eq_ok_iff_rowOf, and_usedMask_eq_encode_iff]

/-- Settles O1: the encoding of `i` is its own masked form, so it decodes to `i`. -/
theorem decodeEncodeAgree : Obligations.DecodeEncodeAgree := by
  intro i
  rw [decodeReadsExactlyTheUsedFields, encode_and_usedMask]

/-! ## The worked encodings -/

open Sys2Proof.Machine in
/-- A text that names a command assembles to the command's encoding, which decodes to it (30_encoding R55). -/
theorem decode_assemble_of_parseLine {t : List Char} {i : Instr} {d : Descriptor} (ht : parseLine t = some i)
    (hd : encode i = d) : (decode d).toOption = some i ∧ assemble t = some d := by
  rw [assemble, ht, ← hd, decodeEncodeAgree i]
  exact ⟨rfl, rfl⟩

theorem toOption_decode_of_illegal {d : Descriptor} (h : ∃ e, decode d = .error e) :
    (decode d).toOption = none := by
  obtain ⟨e, he⟩ := h
  rw [he]
  rfl

/-- Settles O6: each text names its command and the command's encoding is the text's six words; the last two
descriptors have TWO without ITX and an unassigned OP. -/
theorem workedEncodings : Obligations.WorkedEncodings := by
  obtain ⟨hdecDc, hasmDc⟩ := decode_assemble_of_parseLine (t := "ITXDC coef=0x1000, pix=0x2000".toList)
    (i := .itxdc 0x1000 0x2000) (d := .ofWords 0x00000003 0x00001000 0x00002000 0 0 0) (by decide) (by decide)
  obtain ⟨hdecItx, hasmItx⟩ := decode_assemble_of_parseLine (t := "ITX coef=0x3000, pix=0x2000, two".toList)
    (i := .itx true 0x3000 0x2000) (d := .ofWords 0x00000101 0x00003000 0x00002000 0 0 0) (by decide) (by decide)
  obtain ⟨hdecIwht, hasmIwht⟩ := decode_assemble_of_parseLine (t := "IWHT coef=0x1000, out=0x3000".toList)
    (i := .iwht 0x1000 0x3000) (d := .ofWords 0x00000002 0x00001000 0x00003000 0 0 0) (by decide) (by decide)
  obtain ⟨hdecFov, hasmFov⟩ := decode_assemble_of_parseLine
    (t := "FOV pix=0x4080, stride=32, elim=40, ilim=2, hevt=2".toList) (i := .fov 0x4080 32 40 2 2)
    (d := .ofWords 0x00000008 0x00004080 0 0x00000020 0x00020028 0x00000002) (by decide) (by decide)
  obtain ⟨hdecFih, hasmFih⟩ := decode_assemble_of_parseLine
    (t := "FIH pix=0x5000, stride=16, elim=40, ilim=1, hevt=2".toList) (i := .fih 0x5000 16 40 1 2)
    (d := .ofWords 0x0000000B 0x00005000 0 0x00000010 0x00010028 0x00000002) (by decide) (by decide)
  exact ⟨hdecDc, hdecItx, hdecIwht, hdecFov, hdecFih,
    toOption_decode_of_illegal ((illegalDescriptorsAreThese _).mpr (by decide)),
    toOption_decode_of_illegal ((illegalDescriptorsAreThese _).mpr (by decide)),
    hasmDc, hasmItx, hasmIwht, hasmFov, hasmFih⟩

end Sys2Proof
end

