-- ==== Sys2Proof/Proofs/Delivery.lean ====
section
/-! PROOFS. The host's inputs at an idle PRE, the latched command, and a delivered command from its delivery to
its completion (30_encoding R45; 70_reset R170 to R172). -/

namespace Sys2Proof.Machine

open Sys2Proof.Safety

theorem step_of_idle {s : State} (hl : s.latch = none) : step s = idleStep s := by
  simp only [step, engineStep, hl]

theorem step_of_deliver {s : State} {d : Descriptor} {rest : List HostEvent} (hl : s.latch = none)
    (hi : s.inbox = .deliver d :: rest) : step s = .next { s with latch := some d, inbox := rest } := by
  rw [step_of_idle hl, idleStep, hi]

theorem step_of_await {s : State} {rest : List HostEvent} (hl : s.latch = none) (hi : s.inbox = .await :: rest) :
    step s = .next { s with inbox := rest } := by
  rw [step_of_idle hl, idleStep, hi]

/-- Settles O48, input by input; that an access lands is `hostAccess_lands`. -/
theorem idleEngineTakesInputs : Obligations.IdleEngineTakesInputs := by
  intro s hl
  refine ⟨fun d rest hi => step_of_deliver hl hi, fun x rest hi => ?_, fun rest hi => step_of_await hl hi,
    fun rest hi => ?_, step_of_idle_of_no_input hl⟩
  · refine ⟨hostAccess x { s with inbox := rest }, ?_, rfl, hostAccess_lands x _⟩
    rw [step_of_idle hl, idleStep, hi]
  · rw [step_of_idle hl, idleStep, hi]

/-- The latched command runs unless an access or a reset comes first (30_encoding R45). -/
theorem step_of_latched {s : State} {d : Descriptor} {i : Instr} (hl : s.latch = some d) (hd : decode d = .ok i)
    (hx : ∀ x rest, s.inbox ≠ .access x :: rest) (hr : ∀ rest, s.inbox ≠ .reset :: rest) :
    step s = exec i s := by
  rw [step_of_busy hl hd]
  unfold busyStep
  split
  · exact absurd ‹_› (hx _ _)
  · exact absurd ‹_› (hr _)
  · rfl

/-- Settles O47: an illegal descriptor faults before anything else is looked at (60_exceptions R142). -/
theorem stepRunsTheLatchedCommand : Obligations.StepRunsTheLatchedCommand := by
  intro s d hl
  refine ⟨fun i hd hx hr => step_of_latched hl hd hx hr, fun e hd => ?_⟩
  simp only [step, engineStep, hl, hd]

theorem run_succ_of_next {M : Host.Core} {s t : M.State} (h : M.step s = .next t) (k : Nat) :
    M.run (k + 1) s = M.run k t := by
  rw [Host.Core.run, h]

/-- Settles O56: the three steps take the descriptor, run its command and take the wait. -/
theorem deliveredCommandRunsToCompletion : Obligations.DeliveredCommandRunsToCompletion := by
  intro i s hl hi hdef
  have hdeliver : step s = .next { s with latch := some (encode i), inbox := [.await] } := step_of_deliver hl hi
  have hexec := exec_of_defined
    (defined_congr (s' := { s with latch := some (encode i), inbox := [.await] }) rfl hdef)
  rw [← step_of_latched rfl (decodeEncodeAgree i) (by simp) (by simp)] at hexec
  have hrun : Host.Core.run Sys2Proof.core 3 s = .next _ :=
    (run_succ_of_next hdeliver 2).trans ((run_succ_of_next hexec 1).trans
      (run_succ_of_next (M := Sys2Proof.core) (step_of_await (rest := []) rfl rfl) 0))
  exact ⟨_, _, hrun, ⟨rfl, rfl⟩, ⟨_, hrun, rfl, rfl⟩, rfl, exec_of_defined hdef, rfl, rfl⟩

end Sys2Proof.Machine
end

