-- ==== Sys2Proof/Proofs/Arithmetic.lean ====
section
/-! PROOFS. The arithmetic primitives (40_arithmetic R59 to R81): shifts, saturation, the two multipliers, the
butterflies and the steps of the filters. -/

namespace Sys2Proof.Machine

open Sys2Proof.Safety

/-! ## The arithmetic shift right -/

theorem le_sra_iff (q v : Int) (n : Nat) : q ≤ sra v n ↔ q * 2 ^ n ≤ v := Int.le_ediv_iff_mul_le (by positivity)

theorem sra_lt_iff (q v : Int) (n : Nat) : sra v n < q ↔ v < q * 2 ^ n := Int.ediv_lt_iff_lt_mul (by positivity)

theorem sra_eq_iff (q v : Int) (n : Nat) : sra v n = q ↔ q * 2 ^ n ≤ v ∧ v < (q + 1) * 2 ^ n := by
  rw [← le_sra_iff, ← sra_lt_iff]
  omega

theorem abs_sra_le_iff (m v : Int) (n : Nat) : |sra v n| ≤ m ↔ -m * 2 ^ n ≤ v ∧ v < (m + 1) * 2 ^ n := by
  rw [← le_sra_iff, ← sra_lt_iff, abs_le]
  omega

/-- A shift and the bits it shifts out. -/
theorem sra_mul_add_emod (v : Int) (n : Nat) : sra v n * 2 ^ n + v % 2 ^ n = v := Int.ediv_mul_add_emod v _

/-- Settles O7: the greatest integer whose product with `2^n` is not above `v`. -/
theorem shiftRightFloors : Obligations.ShiftRightFloors := by
  refine ⟨fun v n => ?_, fun n => (sra_eq_iff _ _ n).mpr ?_, by decide⟩
  · rw [mul_comm, mul_comm _ (sra v n + 1)]
    exact (sra_eq_iff _ v n).mp rfl
  · have hpow : (0 : Int) < 2 ^ n := by positivity
    omega

/-! ## Saturation -/

theorem clamp8s_of_mem {v : Int} (h : -128 ≤ v) (h' : v ≤ 127) : clamp8s v = v := by
  rw [clamp8s, max_eq_left h, min_eq_left h']

theorem clamp8s_of_ge {v : Int} (h : 127 ≤ v) : clamp8s v = 127 := by
  rw [clamp8s, max_eq_left (by omega), min_eq_right h]

theorem clamp8s_of_le {v : Int} (h : v ≤ -128) : clamp8s v = -128 := by
  rw [clamp8s, max_eq_right h, min_eq_left (by omega)]

/-- Settles O8; `a + 128` is at least 127 for every `a` from -1. -/
theorem clampsSaturate : Obligations.ClampsSaturate :=
  ⟨fun _ => ⟨rfl, rfl⟩, fun _ _ => ⟨rfl, rfl⟩, fun _ h _ => clamp8s_of_ge (by omega), by decide⟩

/-- A saturated operand may be left exact where the next addend does not lead back into the range. -/
theorem sadd8_clamp8s {v d : Int} (h : 0 ≤ d ∧ -128 ≤ v ∨ d ≤ 0 ∧ v ≤ 127) :
    sadd8 (clamp8s v) d = clamp8s (v + d) := by
  unfold sadd8 clamp8s
  omega

theorem sadd8_thrice {s d : Int} (hs : -128 ≤ s) (hs' : s ≤ 127) :
    sadd8 (sadd8 (sadd8 s d) d) d = clamp8s (s + 3 * d) := by
  calc sadd8 (sadd8 (clamp8s (s + d)) d) d
      _ = sadd8 (clamp8s (s + d + d)) d := by rw [sadd8_clamp8s (by omega)]
      _ = clamp8s (s + d + d + d) := sadd8_clamp8s (by omega)
      _ = clamp8s (s + 3 * d) := by ring_nf

/-- Where the difference itself saturates, the sum does so with either. -/
theorem clamp8s_add_three_mul_clamp8s {s e : Int} (hs : -128 ≤ s) (hs' : s ≤ 127) :
    clamp8s (s + 3 * clamp8s e) = clamp8s (s + 3 * e) := by
  rcases le_or_gt e (-128) with hlo | hlo
  · rw [clamp8s_of_le hlo, clamp8s_of_le (by omega), clamp8s_of_le (by omega)]
  rcases le_or_gt 127 e with hhi | hhi
  · rw [clamp8s_of_ge hhi, clamp8s_of_ge (by omega), clamp8s_of_ge (by omega)]
  · rw [clamp8s_of_mem hlo.le hhi.le]

/-- Settles O15: the three additions saturate as one, and so does the difference within it. -/
theorem stepwiseSaturationIsOneClamp : Obligations.StepwiseSaturationIsOneClamp := by
  intro s P0 Q0 hs hs' _ _ _ _
  rw [sadd8_thrice hs hs', clamp8s_add_three_mul_clamp8s hs hs']

/-! ## Truncation -/

theorem trunc16_emod (v : Int) : trunc16 v % 65536 = v % 65536 := by
  rw [trunc16, sext, BitVec.toInt_ofInt]
  exact Int.bmod_emod

/-- Settles O9: the congruence and the range leave one value. -/
theorem truncationWraps : Obligations.TruncationWraps := by
  refine ⟨fun v => ⟨Int.emod_eq_emod_iff_emod_sub_eq_zero.mp (trunc16_emod v), sext16_range v⟩,
    fun v hlo hhi => ?_, by decide⟩
  have hmod := trunc16_emod v
  have hrange : -32768 ≤ trunc16 v ∧ trunc16 v ≤ 32767 := sext16_range v
  omega

/-! ## The multipliers -/

/-- Settles O10, by the definitions. -/
theorem multipliersFollowTheConstants : Obligations.MultipliersFollowTheConstants :=
  ⟨fun _ => ⟨rfl, rfl⟩, by decide, by decide⟩

/-- The floor of the negative is one below the negative of the floor unless the shift is exact. -/
theorem sra_neg_eq_iff (v : Int) (n : Nat) : sra (-v) n = -sra v n - 1 ↔ v % 2 ^ n ≠ 0 := by
  have hpow : (0 : Int) < 2 ^ n := by positivity
  have hsplit := sra_mul_add_emod v n
  have hlt := Int.emod_lt_of_pos v hpow
  have hnonneg := Int.emod_nonneg v hpow.ne'
  rw [sra_eq_iff, sub_mul, neg_mul, sub_add_cancel, neg_mul]
  omega

/-- Two shifts lose up to one unit together against the shift of the sum. -/
theorem sra_add (v w : Int) (n : Nat) :
    sra (v + w) n = sra v n + sra w n ∨ sra (v + w) n = sra v n + sra w n + 1 := by
  have hpow : (0 : Int) < 2 ^ n := by positivity
  have hv := (sra_eq_iff _ v n).mp rfl
  have hw := (sra_eq_iff _ w n).mp rfl
  have hlow : sra v n + sra w n ≤ sra (v + w) n := (le_sra_iff _ _ n).mpr (by linarith)
  have hhigh : sra (v + w) n < sra v n + sra w n + 2 := (sra_lt_iff _ _ n).mpr (by linarith)
  omega

theorem mul1_neg_eq_iff (x : Int) : mul1 (-x) = -mul1 x - 1 ↔ x * k1 % 2 ^ 16 ≠ 0 := by
  rw [← sra_neg_eq_iff (x * k1) 16, mul1, mul1, neg_mul]
  omega

theorem mul2_neg_eq_iff (x : Int) : mul2 (-x) = -mul2 x - 1 ↔ x * k2 % 2 ^ 16 ≠ 0 := by
  rw [← sra_neg_eq_iff (x * k2) 16, mul2, mul2, neg_mul]

/-- `K1` is odd, so it adds no low zero bits to a product. -/
theorem mul_k1_emod_eq_zero_iff (x : Int) : x * k1 % 2 ^ 16 = 0 ↔ x % 65536 = 0 := by
  unfold k1
  omega

/-- `K2` is 4 times an odd number, so two of a product's low zero bits are its own. -/
theorem mul_k2_emod_eq_zero_iff (x : Int) : x * k2 % 2 ^ 16 = 0 ↔ x % 16384 = 0 := by
  unfold k2
  omega

/-- Settles O11: the bits shifted out decide, and the two fractions of a sum may carry, as those of
`MUL2(1)` and `MUL2(3)` do. -/
theorem multipliersAreNotOdd : Obligations.MultipliersAreNotOdd := by
  refine ⟨fun x => ⟨?_, ?_⟩, fun a b => ?_, 1, 3, by decide⟩
  · rw [mul1_neg_eq_iff, ne_eq, mul_k1_emod_eq_zero_iff]
  · rw [mul2_neg_eq_iff, ne_eq, mul_k2_emod_eq_zero_iff]
  · rw [mul2, add_mul]
    exact sra_add _ _ 16

/-! ## The butterflies, rounding and merging -/

/-- Settles O12, by the definition. -/
theorem fullButterflyAlgebra : Obligations.FullButterflyAlgebra := by
  refine ⟨?_, by decide⟩
  rintro i0 i1 i2 i3 _ _ _ _ rfl rfl rfl rfl
  rfl

theorem bfw_eq (i0 i1 i2 i3 : Int) : bfw i0 i1 i2 i3 =
    ⟨i0 + i1 + i2 + i3, i0 + i1 - i2 - i3, i0 - i1 - i2 + i3, i0 - i1 + i2 - i3⟩ := by
  simp only [bfw, butterfly, Quad.mk.injEq]
  omega

/-- Settles O13, row by row of the matrix. -/
theorem walshButterflyIsTheMatrix : Obligations.WalshButterflyIsTheMatrix := by
  refine ⟨bfw_eq, fun i k hk => ?_, by decide⟩
  rw [bfw_eq]
  interval_cases k <;> simp [quadAt, hadamard, Finset.sum_range_succ] <;> ring

/-- Settles O14, by the definitions. -/
theorem roundingAndMerge : Obligations.RoundingAndMerge :=
  ⟨fun _ => ⟨rfl, rfl⟩, fun _ _ => rfl, by decide, by decide, by decide⟩

/-! ## The steps of the filters -/

/-- Below 124 neither correction saturates. -/
theorem taps_of_lt {f : Int} (h : -128 ≤ f) (h' : f < 124) : tapF1 f = (f + 4) / 8 ∧ tapF2 f = (f + 3) / 8 := by
  rw [tapF1, tapF2, clamp8s_of_mem (by omega) (by omega), clamp8s_of_mem (by omega) (by omega)]
  exact ⟨rfl, rfl⟩

/-- From 124 on both corrections have the value of the saturated sum. -/
theorem taps_of_ge {f : Int} (h : 124 ≤ f) : tapF1 f = 15 ∧ tapF2 f = 15 := by
  rw [tapF1, tapF2, clamp8s_of_ge (by omega), clamp8s_of_ge (by omega)]
  decide

/-- Settles O16: below 124 the sums are exact, from there on they saturate. -/
theorem twoTapCorrections : Obligations.TwoTapCorrections := by
  refine ⟨fun f hlo hhi => ?_, by decide⟩
  rcases lt_or_ge f 124 with hf | hf
  · obtain ⟨h1, h2⟩ := taps_of_lt hlo hf
    rw [h1, h2]
    omega
  · obtain ⟨h1, h2⟩ := taps_of_ge hf
    rw [h1, h2]
    omega

/-- One step with factor `k` is at most `k` in magnitude before the clamp, so the clamp keeps it. -/
theorem step7_mul_add {k f : Int} (hk : 0 ≤ k) (hk' : k ≤ 127) (hf : -128 ≤ f) (hf' : f ≤ 127) :
    step7 (k * f + 63) = sra (k * f + 63) 7 ∧ |step7 (k * f + 63)| ≤ k := by
  have hlow : k * -128 ≤ k * f := mul_le_mul_of_nonneg_left hf hk
  have hhigh : k * f ≤ k * 127 := mul_le_mul_of_nonneg_left hf' hk
  have habs : |sra (k * f + 63) 7| ≤ k := (abs_sra_le_iff _ _ 7).mpr ⟨by linarith, by linarith⟩
  obtain ⟨hmin, hmax⟩ := abs_le.mp habs
  have hstep : step7 (k * f + 63) = sra (k * f + 63) 7 := clamp8s_of_mem (by omega) (by omega)
  exact ⟨hstep, hstep ▸ habs⟩

/-- Settles O17: the three factors are instances of one step. -/
theorem sixTapStepsNeedNoClamp : Obligations.SixTapStepsNeedNoClamp := by
  intro f hf hf'
  obtain ⟨h9, hb9⟩ := step7_mul_add (k := 9) (by omega) (by omega) hf hf'
  obtain ⟨h18, hb18⟩ := step7_mul_add (k := 18) (by omega) (by omega) hf hf'
  obtain ⟨h27, hb27⟩ := step7_mul_add (k := 27) (by omega) (by omega) hf hf'
  exact ⟨h9, h18, h27, hb9, hb18, hb27⟩

end Sys2Proof.Machine
end

