-- ==== Sys2Proof/Proofs/TransformWidths.lean ====
section
/-! PROOFS. Bounds of the exact intermediate values of the transforms (40_arithmetic R76). -/

namespace Sys2Proof.Machine

/-! ## One pass -/

theorem abs_quadAt_butterfly_le {a1 b1 c1 d1 m n : Int} (ha : |a1| ≤ m) (hb : |b1| ≤ m) (hc : |c1| ≤ n)
    (hd : |d1| ≤ n) (k : Nat) : |quadAt (butterfly a1 b1 c1 d1) k| ≤ m + n := by
  unfold quadAt butterfly
  split_ifs
  · exact (abs_add_le _ _).trans (add_le_add ha hd)
  · exact (abs_add_le _ _).trans (add_le_add hb hc)
  · exact (abs_sub _ _).trans (add_le_add hb hc)
  · exact (abs_sub _ _).trans (add_le_add ha hd)

/-- A product with a constant shifted by 16, from a bound on the operand. -/
theorem abs_sra_mul_le {x k b p : Int} (hk : 0 ≤ k) (hx : |x| ≤ b) (hp : b * k ≤ p * 65536) :
    |sra (x * k) 16| ≤ p := by
  obtain ⟨hlo, hhi⟩ := abs_le.mp hx
  have hlow : -b * k ≤ x * k := mul_le_mul_of_nonneg_right hlo hk
  have hhigh : x * k ≤ b * k := mul_le_mul_of_nonneg_right hhi hk
  exact (abs_sra_le_iff _ _ 16).mpr ⟨by linarith, by linarith⟩

section
variable {i0 i1 i2 i3 b : Int} (h0 : |i0| ≤ b) (h1 : |i1| ≤ b) (h2 : |i2| ≤ b) (h3 : |i3| ≤ b)
include h0 h1 h2 h3

/-- One pass of the full transform: `p` and `q` bound the two shifted products. -/
theorem abs_quadAt_bf_le {p q : Int} (hp : b * k1 ≤ p * 65536) (hq : b * k2 ≤ q * 65536) (k : Nat) :
    |quadAt (bf i0 i1 i2 i3) k| ≤ 2 * b + (b + p + q) := by
  have hmul1 : ∀ {x : Int}, |x| ≤ b → |mul1 x| ≤ b + p := fun hx =>
    (abs_add_le _ _).trans (add_le_add hx (abs_sra_mul_le (by decide) hx hp))
  have hmul2 : ∀ {x : Int}, |x| ≤ b → |mul2 x| ≤ q := fun hx => abs_sra_mul_le (by decide) hx hq
  refine abs_quadAt_butterfly_le ?_ ?_ ?_ ?_ k
  · linarith [abs_add_le i0 i2]
  · linarith [abs_sub i0 i2]
  · linarith [abs_sub (mul2 i1) (mul1 i3), hmul2 h1, hmul1 h3]
  · linarith [abs_add_le (mul1 i1) (mul2 i3), hmul1 h1, hmul2 h3]

/-- One pass of the Walsh-Hadamard transform. -/
theorem abs_quadAt_bfw_le (k : Nat) : |quadAt (bfw i0 i1 i2 i3) k| ≤ 2 * b + 2 * b := by
  refine abs_quadAt_butterfly_le ?_ ?_ ?_ ?_ k
  · linarith [abs_add_le i0 i2]
  · linarith [abs_sub i0 i2]
  · linarith [abs_sub i1 i3]
  · linarith [abs_add_le i1 i3]

end

/-! ## Two passes over coefficients of 16 bits -/

section
variable {c : Nat → Int} (hc : ∀ i, i < 16 → |c i| ≤ 32768)
include hc

theorem abs_interT_le (y : Nat) {u : Nat} (hu : u < 4) : |interT c y u| ≤ 126084 :=
  abs_quadAt_bf_le (p := 10046) (q := 17734) (hc u (by omega)) (hc _ (by omega)) (hc _ (by omega)) (hc _ (by omega))
    (by decide) (by decide) y

theorem abs_passAcross_le (y x : Nat) : |quadAt (passAcross c y) x| ≤ 485142 :=
  abs_quadAt_bf_le (p := 38653) (q := 68237) (abs_interT_le hc y (by omega)) (abs_interT_le hc y (by omega))
    (abs_interT_le hc y (by omega)) (abs_interT_le hc y (by omega)) (by decide) (by decide) x

theorem abs_whtT_le (y : Nat) {u : Nat} (hu : u < 4) : |whtT c y u| ≤ 131072 :=
  abs_quadAt_bfw_le (hc u (by omega)) (hc _ (by omega)) (hc _ (by omega)) (hc _ (by omega)) y

theorem abs_whtO_le (y x : Nat) : |whtO c y x| ≤ 524288 :=
  abs_quadAt_bfw_le (abs_whtT_le hc y (by omega)) (abs_whtT_le hc y (by omega)) (abs_whtT_le hc y (by omega))
    (abs_whtT_le hc y (by omega)) x

theorem abs_blockResidual_le (y x : Nat) : |blockResidual c y x| ≤ 60643 := by
  have hpass := abs_le.mp (abs_passAcross_le hc y x)
  exact (abs_sra_le_iff _ _ 3).mpr (by omega)

theorem abs_whtG_le (i : Nat) : |whtG c i| ≤ 65536 := by
  have hsum := abs_le.mp (abs_whtO_le hc (i / 4) (i % 4))
  exact (abs_sra_le_iff _ _ 3).mpr (by omega)

end

/-- Settles O18: each pass bounds its outputs by its operands' bound. -/
theorem transformWidthsSuffice : Obligations.TransformWidthsSuffice := by
  intro c hrange x y hx hy
  have hc : ∀ i, i < 16 → |c i| ≤ 32768 := fun i hi => by
    obtain ⟨hlo, hhi⟩ := hrange i hi
    exact abs_le.mpr ⟨hlo, by omega⟩
  have hpass := abs_le.mp (abs_passAcross_le hc y x)
  have hsum := abs_le.mp (abs_whtO_le hc y x)
  exact ⟨abs_interT_le hc y hx, abs_lt.mpr (by omega), abs_blockResidual_le hc y x, abs_le.mpr (by omega),
    abs_whtG_le hc _⟩

end Sys2Proof.Machine
end

