-- ==== Sys2Proof/Proofs/TransformResidual.lean ====
section
/-! PROOFS. The arithmetic of the two passes (41_inverse_transform R85 to R97): the residual of a block, of one
with few coefficients, and the Walsh-Hadamard outputs as signed sums. -/

namespace Sys2Proof.Machine

open Sys2Proof.Safety

/-! ## The residual from the two passes -/

theorem quadAt_tuple (f : Nat → Int) {k : Nat} (hk : k < 4) : quadAt ⟨f 0, f 1, f 2, f 3⟩ k = f k := by
  interval_cases k <;> rfl

section
variable {c : Nat → Int} {T O : Nat → Nat → Int} (h : TwoPasses c T O) {y : Nat} (hy : y < 4)
include h hy

theorem interT_of_twoPasses {u : Nat} (hu : u < 4) : interT c y u = T y u := by
  rw [interT, passDown, h.1 u hu, quadAt_tuple (T · u) hy]

theorem quadAt_passAcross_of_twoPasses {x : Nat} (hx : x < 4) : quadAt (passAcross c y) x = O y x := by
  have hT : ∀ {u : Nat}, u < 4 → interT c y u = T y u := interT_of_twoPasses h hy
  rw [passAcross, hT (by omega), hT (by omega), hT (by omega), hT (by omega), h.2 y hy, quadAt_tuple (O y) hx]

/-- The residual is the rounded second-pass output (41 R87). -/
theorem blockResidual_of_twoPasses {x : Nat} (hx : x < 4) : blockResidual c y x = sra (O y x + 4) 3 := by
  rw [blockResidual, rndT, quadAt_passAcross_of_twoPasses h hy hx]

end

/-! ## Blocks with few coefficients (41 R93, R102) -/

@[simp] theorem mul1_zero : mul1 0 = 0 := rfl

@[simp] theorem mul2_zero : mul2 0 = 0 := rfl

/-- What an input `v` at index 1 of a pass adds to the output with index `k` (40_arithmetic R71). -/
def oddTerm (v : Int) (k : Nat) : Int := quadAt ⟨mul1 v, mul2 v, -mul2 v, -mul1 v⟩ k

@[simp] theorem oddTerm_zero (k : Nat) : oddTerm 0 k = 0 := by
  simp [oddTerm, quadAt]

/-- A pass over its two low inputs alone: the first enters every output as it is. -/
theorem quadAt_bf_low (i0 i1 : Int) (k : Nat) : quadAt (bf i0 i1 0 0) k = i0 + oddTerm i1 k := by
  simp only [bf, butterfly, oddTerm, quadAt, mul1_zero, mul2_zero]
  split_ifs <;> ring

theorem ac3Residual_eq (c0 c1 c4 : Int) (y x : Nat) :
    ac3Residual c0 c1 c4 y x = sra (c0 + 4 + oddTerm c4 y + oddTerm c1 x) 3 := rfl

section
variable {c : Nat → Int} (hc : ∀ i, i < 16 → i ≠ 0 → i ≠ 1 → i ≠ 4 → c i = 0)
include hc

theorem interT_of_ac3 (y : Nat) :
    interT c y 0 = c 0 + oddTerm (c 4) y ∧ interT c y 1 = c 1 ∧ interT c y 2 = 0 ∧ interT c y 3 = 0 := by
  have h0 : ∀ {i : Nat}, i < 16 ∧ i ≠ 0 ∧ i ≠ 1 ∧ i ≠ 4 → c i = 0 := fun ⟨hi, h0, h1, h4⟩ => hc _ hi h0 h1 h4
  simp [interT, passDown, h0, quadAt_bf_low]

theorem quadAt_passAcross_of_ac3 (y x : Nat) :
    quadAt (passAcross c y) x = c 0 + oddTerm (c 4) y + oddTerm (c 1) x := by
  obtain ⟨hT0, hT1, hT2, hT3⟩ := interT_of_ac3 hc y
  rw [passAcross, hT0, hT1, hT2, hT3, quadAt_bf_low]

theorem blockResidual_of_ac3 (y x : Nat) : blockResidual c y x = ac3Residual (c 0) (c 1) (c 4) y x := by
  rw [blockResidual, rndT, quadAt_passAcross_of_ac3 hc, ac3Residual_eq]
  ring_nf

end

/-- With coefficients 1 and 4 zero too the residual is the rounded coefficient 0 (41 R93 (b)). -/
theorem ac3Residual_dc (c0 : Int) (y x : Nat) : ac3Residual c0 0 0 y x = sra (c0 + 4) 3 := by
  simp [ac3Residual_eq]

theorem blockResidual_of_dc {c : Nat → Int} (hc : ∀ i, 1 ≤ i → i < 16 → c i = 0) (y x : Nat) :
    blockResidual c y x = sra (c 0 + 4) 3 := by
  rw [blockResidual_of_ac3 (fun i hi h0 _ _ => hc i (by omega) hi), hc 1 (by omega) (by omega),
    hc 4 (by omega) (by omega), ac3Residual_dc]

theorem mergeSample_zero {s : Int} (h0 : 0 ≤ s) (h255 : s ≤ 255) : mergeSample s 0 = s := by
  rw [mergeSample, clamp8u, add_zero, max_eq_left h0, min_eq_left h255]

/-- Settles O24: a DC-only block is one whose coefficients 1 and 4 add nothing either. -/
theorem dcOnlyResidual : Obligations.DcOnlyResidual := by
  intro c hc x y hx _
  have hac : ∀ i, i < 16 → i ≠ 0 → i ≠ 1 → i ≠ 4 → c i = 0 := fun i hi h0 _ _ => hc i (by omega) hi
  have h1 : c 1 = 0 := hc 1 (by omega) (by omega)
  have h4 : c 4 = 0 := hc 4 (by omega) (by omega)
  obtain ⟨hT0, hT1, hT2, hT3⟩ := interT_of_ac3 hac y
  refine ⟨?_, fun hx0 => ?_, ?_, blockResidual_of_dc hc y x, fun hlo hhi s hs hs' => ?_⟩
  · rw [hT0, h4, oddTerm_zero, add_zero]
  · obtain rfl | rfl | rfl : x = 1 ∨ x = 2 ∨ x = 3 := by omega
    · rw [hT1, h1]
    · exact hT2
    · exact hT3
  · rw [quadAt_passAcross_of_ac3 hac, h1, h4, oddTerm_zero, oddTerm_zero, add_zero, add_zero]
  · have hzero : sra (c 0 + 4) 3 = 0 := (sra_eq_iff _ _ 3).mpr (by omega)
    rw [blockResidual_of_dc hc, hzero, mergeSample_zero hs hs']

/-- Settles O23: both orders, evaluated on the one block. -/
theorem passOrderIsObservable : Obligations.PassOrderIsObservable := by
  intro c rowFirst hc hrow
  obtain rfl : c = fun i => if i = 6 then 3 else 0 := funext hc
  have hspec : ∀ x < 4, ∀ y < 4, blockResidual (fun i => if i = 6 then 3 else 0) y x = 0 := by decide
  refine ⟨fun x y hx hy => hspec x hx y hy, ?_, ?_⟩
  · rw [hrow]
    decide
  · rw [hrow]
    decide

/-! ## The Walsh-Hadamard outputs (41 R95, R97) -/

theorem quadAt_bfw_eq_sum (i : Nat → Int) {k : Nat} (hk : k < 4) :
    quadAt (bfw (i 0) (i 1) (i 2) (i 3)) k = ∑ j ∈ Finset.range 4, hadamard k j * i j :=
  walshButterflyIsTheMatrix.2.1 i k hk

theorem whtT_eq_sum (w : Nat → Int) {y : Nat} (hy : y < 4) (u : Nat) :
    whtT w y u = ∑ v ∈ Finset.range 4, hadamard y v * w (4 * v + u) := by
  rw [← quadAt_bfw_eq_sum (fun v => w (4 * v + u)) hy, whtT, whtDown, Nat.mul_zero, Nat.zero_add]

/-- An output before rounding is the sum of the inputs with the signs of `H`. -/
theorem whtO_eq_sum (w : Nat → Int) {y x : Nat} (hy : y < 4) (hx : x < 4) :
    whtO w y x = ∑ v ∈ Finset.range 4, ∑ u ∈ Finset.range 4, hadamard y v * hadamard x u * w (4 * v + u) := by
  rw [whtO, quadAt_bfw_eq_sum (whtT w y) hx, Finset.sum_comm]
  refine Finset.sum_congr rfl fun u _ => ?_
  rw [whtT_eq_sum w hy, Finset.mul_sum]
  exact Finset.sum_congr rfl fun v _ => by ring

theorem whtG_eq (w : Nat → Int) {y x : Nat} (hx : x < 4) : whtG w (4 * y + x) = sra (whtO w y x + 3) 3 := by
  rw [whtG, rndW, show (4 * y + x) / 4 = y by omega, show (4 * y + x) % 4 = x by omega]

theorem abs_hadamard (y v : Nat) : |hadamard y v| = 1 := by
  unfold hadamard
  split_ifs <;> rfl

/-- The signs lose nothing in magnitude, so no output exceeds the sum of the inputs' magnitudes. -/
theorem abs_whtO_le_sum (w : Nat → Int) {y x : Nat} (hy : y < 4) (hx : x < 4) :
    |whtO w y x| ≤ ∑ i ∈ Finset.range 16, |w i| := by
  have hterm : ∀ v u, |hadamard y v * hadamard x u * w (4 * v + u)| = |w (4 * v + u)| := fun v u => by
    rw [abs_mul, abs_mul, abs_hadamard, abs_hadamard, one_mul, one_mul]
  calc |whtO w y x|
      _ ≤ ∑ v ∈ Finset.range 4, ∑ u ∈ Finset.range 4, |hadamard y v * hadamard x u * w (4 * v + u)| := by
        rw [whtO_eq_sum w hy hx]
        exact (Finset.abs_sum_le_sum_abs _ _).trans
          (Finset.sum_le_sum fun v _ => Finset.abs_sum_le_sum_abs _ _)
      _ = ∑ v ∈ Finset.range 4, ∑ u ∈ Finset.range 4, |w (4 * v + u)| := by simp only [hterm]
      _ = ∑ i ∈ Finset.range 16, |w i| := by
        simp only [Finset.sum_range_succ, Finset.sum_range_zero]
        ring

/-- Settles O27: up to 262140 the rounded output has 16 bits; the extremes are evaluated. -/
theorem walshOutputFitsOrWraps : Obligations.WalshOutputFitsOrWraps := by
  refine ⟨fun w hw i hi => ?_, by decide⟩
  obtain ⟨hlo, hhi⟩ := abs_le.mp ((abs_whtO_le_sum w (y := i / 4) (x := i % 4) (by omega) (by omega)).trans hw)
  obtain ⟨-, hfits, -⟩ := truncationWraps
  exact hfits _ ((le_sra_iff _ _ 3).mpr (by omega)) (Int.lt_add_one_iff.mp ((sra_lt_iff _ _ 3).mpr (by omega)))

end Sys2Proof.Machine
end

