-- ==== Sys2Proof/Proofs/TransformCommands.lean ====
section
/-! PROOFS. The commands ITX, IWHT, ITXDC and ITXAC3 (41_inverse_transform R88 to R103): what each leaves in
memory, and where two of them leave the same state. -/

namespace Sys2Proof.Machine

open Sys2Proof.Safety

/-! ## What a completed command leaves alone -/

theorem writes_nonneg_of_defined {i : Instr} {s : State} (h : Defined i s) :
    ∀ a ∈ (planOf i s.platform).writes, 0 ≤ a := fun a ha =>
  (writes_inSpace ((verdict_eq_none_iff _ _).mpr h) a ha).1

theorem onlyStoresTo_of_defined {i : Instr} {s : State} (h : Defined i s) :
    OnlyStoresTo s (complete { s with mem := runUnits s.mem (planOf i s.platform).units })
      (planOf i s.platform).writes :=
  ⟨rfl, rfl, rfl, rfl, rfl, fun a =>
    runUnits_read_other _ _ s.mem a (planOf_within i s.platform) (writes_nonneg_of_defined h)⟩

theorem mem_of_completed (s : State) (m : Memory) : (complete { s with mem := m }).mem = m := rfl

/-- Addresses apart from those stored to hold what they held before. -/
theorem agreeOn_of_onlyStoresTo {s t : State} {ws as : List Int} (h : OnlyStoresTo s t ws)
    (has : ∀ a ∈ as, 0 ≤ a ∧ a ∉ ws) : AgreeOn as t.mem s.mem := by
  obtain ⟨-, -, -, -, -, hread⟩ := h
  intro a ha
  obtain ⟨hpos, hout⟩ := has a ha
  exact hread _ (by rwa [Int.toNat_of_nonneg hpos])

/-- The coefficients of a command whose preconditions hold are in the address space and are not written. -/
theorem coefReads_apart {i : Instr} {s : State} (h : Defined i s) :
    ∀ a ∈ (planOf i s.platform).coefReads, 0 ≤ a ∧ a ∉ (planOf i s.platform).writes := by
  obtain ⟨-, -, hreach, ⟨-, happart⟩, -⟩ := h
  intro a ha
  have hin : a ∈ planExtent (planOf i s.platform) :=
    List.mem_append_left _ (List.mem_append_left _ (List.mem_append_left _ ha))
  exact ⟨(hreach a hin).1, happart a ha⟩

/-! ## One unit of a command -/

theorem runUnit_congr {m : Memory} {u v : Memory → List Store} (h : u m = v m) : runUnit m u = runUnit m v :=
  congrArg m.writeAll h

/-- A unit leaves the bytes apart from those it stores to alone. -/
theorem agreeOn_runUnit {m : Memory} {u : Memory → List Store} {ws as : List Int} (hu : ∀ w ∈ u m, w.1 ∈ ws)
    (hpos : ∀ p ∈ ws, 0 ≤ p) (has : ∀ a ∈ as, 0 ≤ a ∧ a ∉ ws) : AgreeOn as (runUnit m u) m := by
  intro a ha
  obtain ⟨ha0, hout⟩ := has a ha
  refine Memory.read_writeAll_other _ _ _ fun w hw e => hout ?_
  have hin := hu w hw
  have hw0 := hpos _ hin
  rwa [show a = w.1 by omega]

theorem runUnits_singleton (m : Memory) (u : Memory → List Store) : runUnits m [u] = runUnit m u := rfl

/-! ## Commands that merge one residual (41 R88) -/

/-- A transform whose preconditions hold has rows of at least 8 bytes (60_exceptions R141). -/
theorem bps_of_defined {i : Instr} {s : State} (h : Defined i s) (hu : (planOf i s.platform).usesBps = true) :
    8 ≤ s.platform.bps := h.1 hu

/-- A command whose one unit merges a residual into the region it writes. -/
theorem exec_of_merge {i : Instr} {s : State} {b : Int} {u : Memory → List Store} {r : Nat → Nat → Int}
    (h : Defined i s) (hb : (planOf i s.platform).usesBps = true)
    (hw : (planOf i s.platform).writes = blkAddrs s.platform.bps b) (hu : (planOf i s.platform).units = [u])
    (hr : u s.mem = mergeStores s.platform.bps b r s.mem) :
    ∃ t, exec i s = .next t ∧
      (∀ x y, x < 4 → y < 4 → pix t.mem (pixAddr s.platform.bps b x y) =
        clamp8u (pix s.mem (pixAddr s.platform.bps b x y) + r y x)) ∧
      OnlyStoresTo s t (blkAddrs s.platform.bps b) := by
  have hbps := bps_of_defined h hb
  refine ⟨_, exec_of_defined h, fun x y hx hy => ?_, hw ▸ onlyStoresTo_of_defined h⟩
  rw [mem_of_completed, hu, runUnits_singleton, runUnit_congr hr]
  exact pix_mergeStores (by omega) (hw ▸ writes_nonneg_of_defined h) hx hy

/-- Settles O21: the residual of ITXDC is the rounded coefficient 0 at every sample. -/
theorem itxdcAddsTheDcTerm : Obligations.ItxdcAddsTheDcTerm := by
  intro a b s h
  obtain ⟨t, ht, hpix, honly⟩ := exec_of_merge (b := zext b) h rfl rfl rfl rfl
  exact ⟨t, ht, pack_word0 .., hpix, honly⟩

theorem ac3Coef_other (m : Memory) (a : Int) {i : Nat} (h0 : i ≠ 0) (h1 : i ≠ 1) (h4 : i ≠ 4) :
    ac3Coef m a i = 0 := by
  rw [ac3Coef, if_neg h0, if_neg h1, if_neg h4]

/-- ITXAC3's block has the closed form of its three coefficients (41 R101, R102). -/
theorem blockResidual_ac3Coef (m : Memory) (a : Int) (y x : Nat) :
    blockResidual (ac3Coef m a) y x = ac3Residual (coef m a) (coef m (a + 2)) (coef m (a + 8)) y x :=
  blockResidual_of_ac3 (fun _ _ => ac3Coef_other m a) y x

/-- Settles O22: the residual of ITXAC3 is that of a block with coefficients 0, 1 and 4 alone. -/
theorem itxac3FollowsTheClosedForm : Obligations.Itxac3FollowsTheClosedForm := by
  intro a b s h
  obtain ⟨t, ht, hpix, honly⟩ := exec_of_merge (b := zext b) h rfl rfl rfl rfl
  refine ⟨t, ht, pack_word0 .., fun x y hx hy => ?_, honly⟩
  rw [hpix x y hx hy, blockResidual_ac3Coef]

/-! ## ITX (41 R89, R90) -/

theorem itx_units (two : Bool) (a b : Word) (pf : Platform) : (planOf (.itx two a b) pf).units =
    if two then [itxBlk pf.bps (zext a) (zext b), itxBlk pf.bps (zext a + 32) (zext b + 4)]
    else [itxBlk pf.bps (zext a) (zext b)] := rfl

/-- One block of ITX: its samples, from any arrays that are the two passes over its coefficients. -/
theorem pix_itxBlk {m : Memory} {bps : Nat} {a b : Int} {c : Nat → Int} {T O : Nat → Nat → Int} {x y : Nat}
    (hbps : 8 ≤ bps) (hpos : ∀ p ∈ blkAddrs bps b, 0 ≤ p) (hc : ∀ i, i < 16 → c i = blockCoef m a i)
    (hTO : TwoPasses c T O) (hx : x < 4) (hy : y < 4) :
    pix (runUnit m (itxBlk bps a b)) (pixAddr bps b x y) =
      clamp8u (pix m (pixAddr bps b x y) + sra (O y x + 4) 3) := by
  have hblk : itxBlk bps a b m = mergeStores bps b (blockResidual (blockCoef m a)) m := rfl
  rw [runUnit_congr hblk, pix_mergeStores (by omega) hpos hx hy, ← residual_congr hc,
    blockResidual_of_twoPasses hTO hy hx, mergeSample]

/-- Two regions side by side share no sample once a row is at least 8 bytes (20_memory R35). -/
theorem blkAddrs_side_by_side {bps : Nat} {b p : Int} (hbps : 8 ≤ bps) (h : p ∈ blkAddrs bps b) :
    p ∉ blkAddrs bps (b + 4) := by
  intro h'
  obtain ⟨y, -, x, hx, rfl⟩ := (mem_blkAddrs _ _ _).mp h
  obtain ⟨y', -, x', hx', he⟩ := (mem_blkAddrs _ _ _).mp h'
  rw [pixAddr, pixAddr] at he
  have := pitch_inj (s := bps) (x := x' + 4) (y := x) (r := y') (q := y) (n := 8) (by omega) (by omega) (by omega)
    (by linarith)
  omega

theorem span_subset_span {a a' : Int} {n n' : Nat} (hlo : a' ≤ a) (hhi : a + n ≤ a' + n') :
    span a n ⊆ span a' n' := by
  intro p hp
  obtain ⟨h, h'⟩ := (mem_span _ _ _).mp hp
  exact (mem_span _ _ _).mpr ⟨hlo.trans h, h'.trans_le hhi⟩

section
variable {a b : Word} {s : State} (h : Defined (.itx true a b) s)
include h

theorem two_regions_nonneg :
    (∀ p ∈ blkAddrs s.platform.bps (zext b), 0 ≤ p) ∧ ∀ p ∈ blkAddrs s.platform.bps (zext b + 4), 0 ≤ p :=
  ⟨fun p hp => writes_nonneg_of_defined h p (List.mem_append_left _ hp),
    fun p hp => writes_nonneg_of_defined h p (List.mem_append_right _ hp)⟩

/-- The first block leaves the coefficients of the second alone. -/
theorem first_block_keeps_coefs :
    AgreeOn (span (zext a + 32) 32) (runUnit s.mem (itxBlk s.platform.bps (zext a) (zext b))) s.mem := by
  refine agreeOn_runUnit (fun _ => mergeStores_addr) (two_regions_nonneg h).1 fun p hp => ?_
  obtain ⟨h0, hout⟩ := coefReads_apart h p (span_subset_span (n' := 64) (by omega) (by omega) hp)
  exact ⟨h0, fun hin => hout (List.mem_append_left _ hin)⟩

/-- The first block leaves the samples of the second alone. -/
theorem first_block_keeps_second :
    AgreeOn (blkAddrs s.platform.bps (zext b + 4))
      (runUnit s.mem (itxBlk s.platform.bps (zext a) (zext b))) s.mem :=
  agreeOn_runUnit (fun _ => mergeStores_addr) (two_regions_nonneg h).1 fun p hp =>
    ⟨(two_regions_nonneg h).2 p hp, fun hin => blkAddrs_side_by_side (bps_of_defined h rfl) hin hp⟩

/-- The second block leaves the samples of the first alone. -/
theorem second_block_keeps_first (m : Memory) :
    AgreeOn (blkAddrs s.platform.bps (zext b))
      (runUnit m (itxBlk s.platform.bps (zext a + 32) (zext b + 4))) m :=
  agreeOn_runUnit (fun _ => mergeStores_addr) (two_regions_nonneg h).2 fun p hp =>
    ⟨(two_regions_nonneg h).1 p hp, blkAddrs_side_by_side (bps_of_defined h rfl) hp⟩

end

/-- Settles O19: one block by `pix_itxBlk`; of two blocks, neither touches what the other reads or writes. -/
theorem itxReconstructsItsBlocks : Obligations.ItxReconstructsItsBlocks := by
  intro two a b s h
  have hbps := bps_of_defined h rfl
  refine ⟨_, exec_of_defined h, by cases two <;> exact pack_word0 .., ?first, ?second, ?frame⟩
  case frame => cases two <;> exact onlyStoresTo_of_defined h
  case first =>
    intro c T O hc hTO x y hx hy
    rw [mem_of_completed]
    cases two
    · rw [itx_units, if_neg Bool.false_ne_true, runUnits_singleton,
        pix_itxBlk hbps (writes_nonneg_of_defined h) hc hTO hx hy]
    · have hin := (mem_blkAddrs s.platform.bps (zext b) _).mpr ⟨y, hy, x, hx, rfl⟩
      rw [itx_units, if_pos rfl, runUnits_cons, runUnits_singleton, (second_block_keeps_first h _).pix hin,
        pix_itxBlk hbps (two_regions_nonneg h).1 hc hTO hx hy]
  case second =>
    rintro rfl c T O hc hTO x y hx hy
    have hin := (mem_blkAddrs s.platform.bps (zext b + 4) _).mpr ⟨y, hy, x, hx, rfl⟩
    have hc' := fun i hi => (hc i hi).trans (blockCoef_congr (first_block_keeps_coefs h) i hi).symm
    rw [mem_of_completed, itx_units, if_pos rfl, runUnits_cons, runUnits_singleton,
      ← (first_block_keeps_second h).pix hin, pix_itxBlk hbps (two_regions_nonneg h).2 hc' hTO hx hy]

/-! ## Commands that leave the same state (41 R100, R103) -/

/-- A command that differs from one whose preconditions hold in its units, and in reading fewer coefficients,
has its preconditions too. -/
theorem defined_of_fewer_coefReads {i j : Instr} {s : State} {cr : List Int} {us : List (Memory → List Store)}
    (h : Defined i s) (hj : planOf j s.platform = { planOf i s.platform with coefReads := cr, units := us })
    (hcr : cr ⊆ (planOf i s.platform).coefReads) : Defined j s := by
  obtain ⟨hbps, heven, hreach, ⟨hspaced, hsep⟩, hram⟩ := h
  have hfoot : planFootprint (planOf j s.platform) ⊆ planFootprint (planOf i s.platform) := by
    intro p hp
    simp only [hj, planFootprint, planReads, List.mem_append] at hp ⊢
    exact hp.imp_left (Or.imp_left (@hcr p))
  have hext : planExtent (planOf j s.platform) ⊆ planExtent (planOf i s.platform) := by
    intro p hp
    refine List.mem_append.mpr ((List.mem_append.mp hp).imp (@hfoot p) fun ha => ?_)
    rwa [hj] at ha
  refine ⟨?_, ?_, fun p hp => hreach p (hext hp), ?_, fun p hp => hram p (hfoot hp)⟩ <;> rw [hj]
  · exact hbps
  · exact heven
  · exact ⟨hspaced, fun p hp => hsep p (hcr hp)⟩

/-- Two commands of one unit whose preconditions hold and whose units store the same have one outcome. -/
theorem exec_eq_of_same_stores {i j : Instr} {s : State} {u v : Memory → List Store} (hi : Defined i s)
    (hj : Defined j s) (hu : (planOf i s.platform).units = [u]) (hv : (planOf j s.platform).units = [v])
    (huv : u s.mem = v s.mem) : exec i s = exec j s := by
  rw [exec_of_defined hi, exec_of_defined hj, hu, hv, runUnits_singleton, runUnits_singleton, runUnit_congr huv]

theorem blockCoef_zero (m : Memory) (a : Int) : blockCoef m a 0 = coef m a := by
  simp [blockCoef, coefAddr]

/-- Settles O25: on such a block the residual of ITX is the rounded coefficient 0. -/
theorem itxdcEqualsItxOnDcBlocks : Obligations.ItxdcEqualsItxOnDcBlocks := by
  intro a b s h hc
  have hdc : Defined (.itxdc a b) s :=
    defined_of_fewer_coefReads h rfl (span_subset_span (n' := 32) le_rfl (by simp))
  refine exec_eq_of_same_stores hdc h rfl rfl (mergeStores_congr (fun _ _ => rfl) fun y x => ?_)
  rw [blockResidual_of_dc (c := blockCoef s.mem (zext a)) hc, blockCoef_zero]

/-- Settles O26: such a block is ITXAC3's, and with coefficients 1 and 4 zero it is ITXDC's. -/
theorem itxac3EqualsItxOnAc3Blocks : Obligations.Itxac3EqualsItxOnAc3Blocks := by
  intro a b s
  refine ⟨fun h hc => ?_, fun h h1 h4 => ?_⟩
  · have hac3 : Defined (.itxac3 a b) s :=
      defined_of_fewer_coefReads h rfl (List.append_subset_of_subset_of_subset
        (span_subset_span (n' := 32) le_rfl (by simp)) (span_subset_span (n' := 32) (by simp) (by omega)))
    refine exec_eq_of_same_stores hac3 h rfl rfl (mergeStores_congr (fun _ _ => rfl) fun y x => ?_)
    rw [blockResidual_ac3Coef, blockResidual_of_ac3 (c := blockCoef s.mem (zext a)) hc, blockCoef_zero]
    rfl
  · have hdc : Defined (.itxdc a b) s :=
      defined_of_fewer_coefReads h rfl
        (List.subset_append_of_subset_left _ (span_subset_span (n' := 4) le_rfl (by simp)))
    refine exec_eq_of_same_stores h hdc rfl rfl (mergeStores_congr (fun _ _ => rfl) fun y x => ?_)
    rw [blockResidual_ac3Coef, h1, h4, ac3Residual_dc]

/-! ## IWHT (41 R95, R96, R98) -/

/-- Halfwords 32 bytes apart share no byte, so a store is known by its address. -/
theorem store_eq_of_addr_eq {b : Int} {f : Nat → Int} {i j : Nat} {w w' : Store}
    (hw : w ∈ memWriteStores (outAddr b i) 2 (f i)) (hw' : w' ∈ memWriteStores (outAddr b j) 2 (f j))
    (h : w.1 = w'.1) : w = w' := by
  simp only [memWriteStores_two, outAddr, List.mem_cons, List.not_mem_nil, or_false] at hw hw'
  have hij : i = j := by
    rcases hw with rfl | rfl <;> rcases hw' with rfl | rfl <;> simp only at h <;> omega
  subst hij
  rcases hw with rfl | rfl <;> rcases hw' with rfl | rfl
  · rfl
  · simp at h
  · simp at h
  · rfl

/-- Each byte IWHT stores stands in memory afterwards. -/
theorem read_iwhtStores (m : Memory) (a : Int) {b : Int} (hb : 0 ≤ b) {i : Nat} (hi : i < 16) {w : Store}
    (hw : w ∈ memWriteStores (outAddr b i) 2 (trunc16 (whtG (blockCoef m a) i))) :
    (runUnit m (iwhtStores a b)).read w.1.toNat = w.2 := by
  have hpos : ∀ {v : Store}, v ∈ iwhtStores a b m → 0 ≤ v.1 := fun hv =>
    hb.trans (within_outAddrs b _ (iwhtStores_addr hv)).1
  have hin : w ∈ iwhtStores a b m := List.mem_flatMap.mpr ⟨i, List.mem_range.mpr hi, hw⟩
  refine Memory.read_writeAll_same _ _ _ _ ⟨w, hin, rfl⟩ fun w' hw' e => ?_
  obtain ⟨j, -, hj⟩ := List.mem_flatMap.mp hw'
  have haddr : w'.1 = w.1 := by
    have := hpos hin
    have := hpos hw'
    omega
  rw [store_eq_of_addr_eq (f := fun k => trunc16 (whtG (blockCoef m a) k)) hj hw haddr]

/-- The two bytes of a wrapped value are those of the value itself (40_arithmetic R65). -/
theorem trunc16_bytes (g : Int) :
    ((BitVec.ofInt 8 (trunc16 g)).toNat : Int) = g % 256 ∧
      ((BitVec.ofInt 8 (trunc16 g / 256)).toNat : Int) = g / 256 % 256 := by
  have hmod := trunc16_emod g
  rw [toNat_ofInt8, toNat_ofInt8]
  omega

theorem trunc16_trunc16 (g : Int) : trunc16 (trunc16 g) = trunc16 g := by
  obtain ⟨hlo, hhi⟩ : -32768 ≤ trunc16 g ∧ trunc16 g ≤ 32767 := sext16_range g
  exact truncationWraps.2.1 _ hlo hhi

/-- Entry `16*i` of the output array after IWHT, as a coefficient and byte by byte (41 R96). -/
theorem iwhtStores_entry (m : Memory) (a : Int) {b : Int} (hb : 0 ≤ b) {i : Nat} (hi : i < 16) :
    coef (runUnit m (iwhtStores a b)) (outAddr b i) = trunc16 (whtG (blockCoef m a) i) ∧
      (((runUnit m (iwhtStores a b)).read (outAddr b i).toNat).toNat : Int) = whtG (blockCoef m a) i % 256 ∧
      (((runUnit m (iwhtStores a b)).read (outAddr b i + 1).toNat).toNat : Int) =
        whtG (blockCoef m a) i / 256 % 256 := by
  have hlo := read_iwhtStores m a hb hi List.mem_cons_self
  have hhi := read_iwhtStores m a hb hi (List.mem_cons_of_mem _ List.mem_cons_self)
  obtain ⟨hblo, hbhi⟩ := trunc16_bytes (whtG (blockCoef m a) i)
  exact ⟨(coef_of_bytes _ _ _ hlo hhi).trans (trunc16_trunc16 _), hlo ▸ hblo, hhi ▸ hbhi⟩

/-- The halfwords of the array at `b` other than the entries `16*i` are none of the bytes stored (41 R98). -/
theorem not_mem_outAddrs {b : Int} {j : Nat} (hj : j % 16 ≠ 0) {p : Int} (hp : p ∈ span (b + 2 * j) 2) :
    p ∉ (List.range 16).flatMap fun i => span (outAddr b i) 2 := by
  intro hin
  obtain ⟨i, -, hi⟩ := List.mem_flatMap.mp hin
  rw [mem_span] at hp hi
  rw [outAddr] at hi
  omega

theorem iwht_units (a b : Word) (pf : Platform) :
    (planOf (.iwht a b) pf).units = [iwhtStores (zext a) (zext b)] := rfl

/-- Settles O20: the entries by `iwhtStores_entry`; the input and the other entries lie apart from them. -/
theorem iwhtScattersTheOutputs : Obligations.IwhtScattersTheOutputs := by
  intro a b s h
  have hb : 0 ≤ zext b := Int.natCast_nonneg _
  have honly := onlyStoresTo_of_defined h
  refine ⟨_, exec_of_defined h, pack_word0 .., fun x y g hx hy hg => ?entry, fun i hi => ?input,
    fun j _ hj => ?other, honly⟩
  case entry =>
    have hG : whtG (blockCoef s.mem (zext a)) (4 * y + x) = g := by
      rw [hg, whtG_eq _ hx, whtO_eq_sum _ hy hx]
      simp only [blockCoef, coefAddr, Nat.cast_add, Nat.cast_mul, Nat.cast_ofNat]
    have hentry := iwhtStores_entry s.mem (zext a) hb (i := 4 * y + x) (by omega)
    rw [hG, outAddr, Nat.cast_add, Nat.cast_mul, Nat.cast_ofNat] at hentry
    rw [mem_of_completed, iwht_units, runUnits_singleton]
    exact hentry
  case input => exact blockCoef_congr (agreeOn_of_onlyStoresTo honly (coefReads_apart h)) i hi
  case other =>
    have hkeep : AgreeOn (span (zext b + 2 * j) 2) _ s.mem := agreeOn_of_onlyStoresTo honly fun p hp =>
      ⟨by have := (mem_span _ _ _).mp hp; omega, not_mem_outAddrs hj hp⟩
    exact hkeep.coef ((mem_span _ _ _).mpr (by omega)) ((mem_span _ _ _).mpr (by omega))

end Sys2Proof.Machine
end

