-- ==== Sys2Proof/Proofs/DeblockKernels.lean ====
section
/-! PROOFS. One lane of the deblocking filter: its predicates and its two kernels (42_deblock_filter R106 to
R121). -/

namespace Sys2Proof.Machine

open Sys2Proof.Safety

/-! ## The predicates of a lane -/

theorem absdiff_eq_abs (a b : Int) : absdiff a b = |a - b| := Int.natCast_natAbs _

/-- Two samples differ by at most 255. -/
theorem abs_sub_le_of_samples {a b : Int} (ha : 0 ≤ a ∧ a ≤ 255) (hb : 0 ≤ b ∧ b ≤ 255) : |a - b| ≤ 255 :=
  abs_le.mpr ⟨by omega, by omega⟩

theorem laneHev_eq_true_iff (lim : Limits) (n : Lane) :
    laneHev lim n = true ↔ max |n.p1 - n.p0| |n.q1 - n.q0| > lim.hevt := by
  simp only [laneHev, laneAct, absdiff_eq_abs, decide_eq_true_eq]

theorem laneHev_eq_false_iff (lim : Limits) (n : Lane) :
    laneHev lim n = false ↔ |n.p1 - n.p0| ≤ lim.hevt ∧ |n.q1 - n.q0| ≤ lim.hevt := by
  rw [Bool.eq_false_iff, Ne, laneHev_eq_true_iff, gt_iff_lt, not_lt, max_le_iff]

/-- Settles O28: the activity of samples is at most 255, and 0 where both sides are flat. -/
theorem hevComparesTheActivity : Obligations.HevComparesTheActivity := by
  intro lim n hn
  obtain ⟨-, -, hp1, hp0, hq0, hq1, -, -⟩ := hn
  refine ⟨laneHev_eq_true_iff lim n, fun h => ?_, fun h hp hq => ?_⟩ <;> rw [laneHev_eq_false_iff]
  · exact ⟨(abs_sub_le_of_samples hp1 hp0).trans h, (abs_sub_le_of_samples hq1 hq0).trans h⟩
  · rw [hp, hq, sub_self, sub_self, abs_zero]
    exact ⟨h, h⟩

theorem laneD0_eq (n : Lane) : laneD0 n = 2 * |n.p0 - n.q0| + sra |n.p1 - n.q1| 1 := by
  rw [laneD0, absdiff_eq_abs, absdiff_eq_abs]

theorem laneMask_eq_true_iff (lim : Limits) (n : Lane) :
    laneMask lim n = true ↔ laneD0 n ≤ lim.elim ∧
      |n.p3 - n.p2| ≤ lim.ilim ∧ |n.p2 - n.p1| ≤ lim.ilim ∧ |n.p1 - n.p0| ≤ lim.ilim ∧
      |n.q1 - n.q0| ≤ lim.ilim ∧ |n.q2 - n.q1| ≤ lim.ilim ∧ |n.q3 - n.q2| ≤ lim.ilim := by
  simp only [laneMask, laneExceed, laneAct, absdiff_eq_abs, Bool.not_eq_true', Bool.or_eq_false_iff,
    decide_eq_false_iff_not, not_lt, gt_iff_lt, max_le_iff]
  tauto

/-- The steepest edge between samples: `2*255 + 127`. -/
theorem laneD0_range {n : Lane} (hn : InSampleRange n) : 0 ≤ laneD0 n ∧ laneD0 n ≤ 637 := by
  obtain ⟨-, -, hp1, hp0, hq0, hq1, -, -⟩ := hn
  have h0 := abs_sub_le_of_samples hp0 hq0
  have h0' := abs_nonneg (n.p0 - n.q0)
  have h1 : 0 ≤ sra |n.p1 - n.q1| 1 := (le_sra_iff _ _ 1).mpr (by simp)
  have h1' : sra |n.p1 - n.q1| 1 < 128 :=
    (sra_lt_iff _ _ 1).mpr ((abs_sub_le_of_samples hp1 hq1).trans_lt (by decide))
  rw [laneD0_eq]
  omega

/-- Settles O29: no violation is every difference within its limit. -/
theorem maskIsWithinTheLimits : Obligations.MaskIsWithinTheLimits := fun lim n hn =>
  ⟨laneD0_eq n ▸ laneMask_eq_true_iff lim n, rfl, laneD0_eq n, laneD0_range hn⟩

/-! ## The kernels, step by step -/

/-- Settles O30, by the definition. -/
theorem fourTapKernel : Obligations.FourTapKernel := by
  rintro lim n _ _ _ _ rfl rfl rfl rfl
  rfl

/-- Settles O31: the accumulator grows by `9*fn` at each step. -/
theorem sixTapKernel : Obligations.SixTapKernel := by
  rintro lim n a fh fn _ _ _ _ _ ha hfh hfn rfl rfl rfl rfl rfl
  have hh : fh = filtHev lim n := by
    simp only [hfh, ha, filtHev, Bool.and_eq_true]
    rfl
  have hf : fn = filtFlat lim n := by
    simp only [hfn, ha, filtFlat, Bool.and_eq_true, Bool.not_eq_true']
    rfl
  have h18 : 18 * fn + 63 = 9 * fn + 63 + 9 * fn := by ring
  have h27 : 27 * fn + 63 = 9 * fn + 63 + 9 * fn + 9 * fn := by ring
  rw [h18, h27, hh, hf]
  rfl

/-! ## Moving a sample -/

theorem sadd8_bias_zero {v : Int} (hv : 0 ≤ v ∧ v ≤ 255) : sadd8 (bias v) 0 = bias v := by
  rw [sadd8, add_zero, bias, clamp8s_of_mem (by omega) (by omega)]

theorem ssub8_eq_sadd8_neg (a b : Int) : ssub8 a b = sadd8 a (-b) := rfl

theorem unbias_bias (v : Int) : unbias (bias v) = v := sub_add_cancel v 128

theorem sadd8_sadd8_zero (a b : Int) : sadd8 (sadd8 a b) 0 = sadd8 a b := by
  unfold sadd8 clamp8s
  omega

/-- Saturation never moves a sample further than asked. -/
theorem abs_unbias_sadd8_sub_le {v f m : Int} (hv : 0 ≤ v ∧ v ≤ 255) (hf : |f| ≤ m) :
    |unbias (sadd8 (bias v) f) - v| ≤ m := by
  rw [abs_le] at hf ⊢
  unfold unbias sadd8 clamp8s bias
  omega

theorem abs_unbias_ssub8_sub_le {v f m : Int} (hv : 0 ≤ v ∧ v ≤ 255) (hf : |f| ≤ m) :
    |unbias (ssub8 (bias v) f) - v| ≤ m := abs_unbias_sadd8_sub_le hv ((abs_neg f).trans_le hf)

theorem abs_sub_self_le {v m : Int} (hm : 0 ≤ m) : |v - v| ≤ m := by rwa [sub_self, abs_zero]

/-! ## The filter values -/

theorem clamp8s_range (v : Int) : -128 ≤ clamp8s v ∧ clamp8s v ≤ 127 := by
  unfold clamp8s
  omega

theorem filt4_range (lim : Limits) (n : Lane) : -128 ≤ filt4 lim n ∧ filt4 lim n ≤ 127 := by
  unfold filt4
  split
  · exact clamp8s_range _
  · decide

theorem filtFlat_range (lim : Limits) (n : Lane) : -128 ≤ filtFlat lim n ∧ filtFlat lim n ≤ 127 := by
  unfold filtFlat
  split
  · exact clamp8s_range _
  · decide

theorem abs_taps_le {f : Int} (h : -128 ≤ f ∧ f ≤ 127) : |tapF1 f| ≤ 16 ∧ |tapF2 f| ≤ 16 := by
  obtain ⟨h1, h1', h2, h2', -⟩ := twoTapCorrections.1 f h.1 h.2
  exact ⟨abs_le.mpr ⟨h1, by omega⟩, abs_le.mpr ⟨h2, by omega⟩⟩

theorem abs_half_tapF1_le {f : Int} (h : -128 ≤ f ∧ f ≤ 127) : |half (tapF1 f)| ≤ 8 := by
  obtain ⟨h1, h1', -⟩ := twoTapCorrections.1 f h.1 h.2
  exact (abs_sra_le_iff _ _ 1).mpr ⟨by omega, by omega⟩

theorem tapF1_zero : tapF1 0 = 0 := by decide

theorem tapF2_zero : tapF2 0 = 0 := by decide

theorem half_zero : half 0 = 0 := by decide

theorem filt4_of_masked {lim : Limits} {n : Lane} (h : laneMask lim n = false) : filt4 lim n = 0 := by
  simp [filt4, h]

theorem filtHev_of_masked {lim : Limits} {n : Lane} (h : laneMask lim n = false) : filtHev lim n = 0 := by
  simp [filtHev, h]

theorem filtFlat_of_masked {lim : Limits} {n : Lane} (h : laneMask lim n = false) : filtFlat lim n = 0 := by
  simp [filtFlat, h]

theorem filtFlat_of_hev {lim : Limits} {n : Lane} (h : laneHev lim n = true) : filtFlat lim n = 0 := by
  simp [filtFlat, h]

theorem filtHev_of_flat {lim : Limits} {n : Lane} (h : laneHev lim n = false) : filtHev lim n = 0 := by
  simp [filtHev, h]

/-- In a `hev` lane both kernels have one filter value (42 R121). -/
theorem filtHev_of_hev {lim : Limits} {n : Lane} (h : laneHev lim n = true) : filtHev lim n = filt4 lim n := by
  simp [filtHev, filt4, filt6, h]

/-! ## The 4-tap kernel -/

theorem kernelF4_of_masked {lim : Limits} {n : Lane} (hn : InSampleRange n) (h : laneMask lim n = false) :
    kernelF4 lim n = n := by
  obtain ⟨-, -, hp1, hp0, hq0, hq1, -, -⟩ := hn
  simp only [kernelF4, filt4_of_masked h, tapF1_zero, tapF2_zero, half_zero, ssub8_eq_sadd8_neg, neg_zero,
    sadd8_bias_zero hp1, sadd8_bias_zero hp0, sadd8_bias_zero hq0, sadd8_bias_zero hq1, unbias_bias, ite_self]

/-- A `hev` lane changes at the edge alone. -/
theorem kernelF4_of_hev {lim : Limits} {n : Lane} (h : laneHev lim n = true) :
    kernelF4 lim n = { n with
      p0 := unbias (sadd8 (bias n.p0) (tapF2 (filt4 lim n)))
      q0 := unbias (ssub8 (bias n.q0) (tapF1 (filt4 lim n))) } := by
  simp only [kernelF4, h, if_true]

/-- Settles O32: the corrections are at most 16 and their half at most 8, and saturation adds nothing. -/
theorem fourTapProperties : Obligations.FourTapProperties := by
  intro lim n hn
  refine ⟨⟨rfl, rfl, rfl, rfl⟩, kernelF4_of_masked hn, fun h => ?hev, kernelF4_range hn, ?_⟩
  case hev =>
    rw [kernelF4_of_hev h]
    exact ⟨rfl, rfl⟩
  obtain ⟨-, -, hp1, hp0, hq0, hq1, -, -⟩ := hn
  obtain ⟨hf1, hf2⟩ := abs_taps_le (filt4_range lim n)
  have hf3 := abs_half_tapF1_le (filt4_range lim n)
  refine ⟨abs_unbias_sadd8_sub_le hp0 hf2, abs_unbias_ssub8_sub_le hq0 hf1, ?_, ?_⟩ <;>
    simp only [kernelF4] <;> split
  · exact abs_sub_self_le (by decide)
  · exact abs_unbias_sadd8_sub_le hp1 hf3
  · exact abs_sub_self_le (by decide)
  · exact abs_unbias_ssub8_sub_le hq1 hf3

/-! ## The 6-tap kernel -/

/-- Without the non-hev component only the 2-tap update is left. -/
theorem kernelF6_of_filtFlat_eq_zero {lim : Limits} {n : Lane} (hn : InSampleRange n)
    (h : filtFlat lim n = 0) :
    kernelF6 lim n = { n with
      p0 := unbias (sadd8 (bias n.p0) (tapF2 (filtHev lim n)))
      q0 := unbias (ssub8 (bias n.q0) (tapF1 (filtHev lim n))) } := by
  obtain ⟨-, hp2, hp1, -, -, hq1, hq2, -⟩ := hn
  have hstep : step7 63 = 0 := by decide
  simp only [kernelF6, h, mul_zero, zero_add, add_zero, hstep, ssub8_eq_sadd8_neg, neg_zero, sadd8_sadd8_zero,
    sadd8_bias_zero hp2, sadd8_bias_zero hp1, sadd8_bias_zero hq1, sadd8_bias_zero hq2, unbias_bias]

/-- Without the hev component only the three steps are left. -/
theorem kernelF6_of_filtHev_eq_zero {lim : Limits} {n : Lane} (hn : InSampleRange n)
    (h : filtHev lim n = 0) :
    kernelF6 lim n = { n with
      p2 := unbias (sadd8 (bias n.p2) (step7 (9 * filtFlat lim n + 63)))
      p1 := unbias (sadd8 (bias n.p1) (step7 (18 * filtFlat lim n + 63)))
      p0 := unbias (sadd8 (bias n.p0) (step7 (27 * filtFlat lim n + 63)))
      q0 := unbias (ssub8 (bias n.q0) (step7 (27 * filtFlat lim n + 63)))
      q1 := unbias (ssub8 (bias n.q1) (step7 (18 * filtFlat lim n + 63)))
      q2 := unbias (ssub8 (bias n.q2) (step7 (9 * filtFlat lim n + 63))) } := by
  obtain ⟨-, -, -, hp0, hq0, -, -, -⟩ := hn
  have h18 : 9 * filtFlat lim n + 63 + 9 * filtFlat lim n = 18 * filtFlat lim n + 63 := by ring
  have h27 : 18 * filtFlat lim n + 63 + 9 * filtFlat lim n = 27 * filtFlat lim n + 63 := by ring
  simp only [kernelF6, h, h18, h27, tapF1_zero, tapF2_zero, ssub8_eq_sadd8_neg, neg_zero, sadd8_bias_zero hp0,
    sadd8_bias_zero hq0]

theorem kernelF6_of_masked {lim : Limits} {n : Lane} (hn : InSampleRange n) (h : laneMask lim n = false) :
    kernelF6 lim n = n := by
  have hflat := kernelF6_of_filtFlat_eq_zero hn (filtFlat_of_masked h)
  obtain ⟨-, -, -, hp0, hq0, -, -, -⟩ := hn
  rw [hflat, filtHev_of_masked h, tapF1_zero, tapF2_zero, ssub8_eq_sadd8_neg, neg_zero, sadd8_bias_zero hp0,
    sadd8_bias_zero hq0, unbias_bias, unbias_bias]

theorem kernelF6_of_hev {lim : Limits} {n : Lane} (hn : InSampleRange n) (h : laneHev lim n = true) :
    kernelF6 lim n = kernelF4 lim n := by
  rw [kernelF6_of_filtFlat_eq_zero hn (filtFlat_of_hev h), filtHev_of_hev h, kernelF4_of_hev h]

/-- Settles O33: a `hev` lane is one of the 4-tap kernel, any other moves by the three steps. -/
theorem sixTapProperties : Obligations.SixTapProperties := by
  intro lim n hn
  refine ⟨⟨rfl, rfl⟩, kernelF6_of_masked hn, fun _ h => ?edge, kernelF6_of_hev hn, kernelF6_range hn,
    fun h => ?flat, fun h => ?hev⟩
  case edge =>
    rw [kernelF6_of_hev hn h, kernelF4_of_hev h]
    exact ⟨rfl, rfl, rfl, rfl⟩
  case flat =>
    rw [kernelF6_of_filtHev_eq_zero hn (filtHev_of_flat h)]
    obtain ⟨-, hp2, hp1, hp0, hq0, hq1, hq2, -⟩ := hn
    obtain ⟨hf, hf'⟩ := filtFlat_range lim n
    obtain ⟨-, -, -, h9, h18, h27⟩ := sixTapStepsNeedNoClamp _ hf hf'
    exact ⟨abs_unbias_sadd8_sub_le hp2 h9, abs_unbias_ssub8_sub_le hq2 h9, abs_unbias_sadd8_sub_le hp1 h18,
      abs_unbias_ssub8_sub_le hq1 h18, abs_unbias_sadd8_sub_le hp0 h27, abs_unbias_ssub8_sub_le hq0 h27⟩
  case hev =>
    obtain ⟨-, -, -, -, hp0, hq0, -⟩ := fourTapProperties lim n hn
    rw [kernelF6_of_hev hn h]
    exact ⟨hp0, hq0⟩

/-- Where the mask is false neither kernel changes the lane (42 R118 (b), R121). -/
theorem applyKernel_of_masked (k : EdgeKernel) {lim : Limits} {n : Lane} (hn : InSampleRange n)
    (h : laneMask lim n = false) : applyKernel k lim n = n := by
  cases k
  · exact kernelF4_of_masked hn h
  · exact kernelF6_of_masked hn h

end Sys2Proof.Machine
end

