-- ==== Sys2Proof/Proofs/DeblockEdges.lean ====
section
/-! PROOFS. What the commands FOV, FOH, FIV and FIH leave in memory (42_deblock_filter R123 to R128, R131). -/

namespace Sys2Proof.Machine

open Sys2Proof.Safety

/-! ## The edges of a filter command -/

theorem edgePlan_writes_one (e0 st ln : Int) (k : EdgeKernel) (lim : Limits) (sp : Bool) :
    (edgePlan [e0] st ln k lim sp).writes = edgeAddrs e0 st ln (kernelTaps k) := List.flatMap_singleton _ _

theorem edgePlan_writes_three (e1 e2 e3 st ln : Int) (k : EdgeKernel) (lim : Limits) (sp : Bool) :
    (edgePlan [e1, e2, e3] st ln k lim sp).writes = edgeAddrs e1 st ln (kernelTaps k) ++
      edgeAddrs e2 st ln (kernelTaps k) ++ edgeAddrs e3 st ln (kernelTaps k) := by
  simp [edgePlan]

section
variable {i : Instr} {s : State} {e0s : List Int} {st ln : Int} {k : EdgeKernel} {lim : Limits} {sp : Bool}
  (h : Defined i s) (hp : planOf i s.platform = edgePlan e0s st ln k lim sp)
include h hp

/-- The taps of a filter command whose preconditions hold have no negative address. -/
theorem taps_nonneg_of_defined {e0 : Int} (he : e0 ∈ e0s) : ∀ p ∈ edgeAddrs e0 st ln allTaps, 0 ≤ p := by
  obtain ⟨-, -, hreach, -, -⟩ := h
  intro p hpe
  have hpix : p ∈ (planOf i s.platform).pixReads := hp ▸ List.mem_flatMap.mpr ⟨e0, he, hpe⟩
  exact (hreach p (List.mem_append_left _ (List.mem_append_left _ (List.mem_append_right _ hpix)))).1

/-- Each unit of a filter command whose preconditions hold filters its edge, whatever memory holds. -/
theorem edgeFiltered_of_defined {e0 : Int} (he : e0 ∈ e0s) (hsp : EdgeSpaced e0 st ln) (m : Memory) :
    EdgeFiltered m (runUnit m (filterEdge e0 st ln k lim)) e0 st ln k lim :=
  filterEdge_filters hsp (taps_nonneg_of_defined h hp he)

theorem spaced_of_defined : sp = true := by
  obtain ⟨-, -, -, ⟨hspaced, -⟩, -⟩ := h
  rwa [hp] at hspaced

end

/-- A filter command of one edge. -/
theorem exec_one_edge {i : Instr} {s : State} {e0 st ln : Int} {k : EdgeKernel} {lim : Limits} {sp : Bool}
    (h : Defined i s) (hp : planOf i s.platform = edgePlan [e0] st ln k lim sp) (hsp : EdgeSpaced e0 st ln) :
    ∃ t, exec i s = .next t ∧ EdgeFiltered s.mem t.mem e0 st ln k lim ∧
      OnlyStoresTo s t (edgeAddrs e0 st ln (kernelTaps k)) := by
  have honly := onlyStoresTo_of_defined h
  rw [hp, edgePlan_writes_one] at honly
  refine ⟨_, exec_of_defined h, ?_, hp ▸ honly⟩
  rw [mem_of_completed, hp]
  exact edgeFiltered_of_defined h hp (List.mem_singleton_self _) hsp s.mem

/-- A filter command of three edges. -/
theorem exec_three_edges {i : Instr} {s : State} {e1 e2 e3 st ln : Int} {k : EdgeKernel} {lim : Limits}
    {sp : Bool} (h : Defined i s) (hp : planOf i s.platform = edgePlan [e1, e2, e3] st ln k lim sp)
    (hsp : ∀ e0, EdgeSpaced e0 st ln) :
    ∃ t, exec i s = .next t ∧
      (∃ m1 m2, EdgeFiltered s.mem m1 e1 st ln k lim ∧ EdgeFiltered m1 m2 e2 st ln k lim ∧
        EdgeFiltered m2 t.mem e3 st ln k lim) ∧
      OnlyStoresTo s t (edgeAddrs e1 st ln (kernelTaps k) ++ edgeAddrs e2 st ln (kernelTaps k) ++
        edgeAddrs e3 st ln (kernelTaps k)) := by
  have honly := onlyStoresTo_of_defined h
  rw [hp, edgePlan_writes_three] at honly
  refine ⟨_, exec_of_defined h, ?_, hp ▸ honly⟩
  rw [mem_of_completed, hp]
  exact ⟨_, _, edgeFiltered_of_defined h hp (by simp) (hsp e1) _,
    edgeFiltered_of_defined h hp (by simp) (hsp e2) _, edgeFiltered_of_defined h hp (by simp) (hsp e3) _⟩

/-- Settles O34: rows at least 16 apart keep the positions of the edge apart. -/
theorem fovFiltersTheEdgeAbove : Obligations.FovFiltersTheEdgeAbove := by
  intro a sd elim ilim hevt s h
  have hs : 16 ≤ zext sd := of_decide_eq_true (spaced_of_defined h rfl)
  obtain ⟨t, ht, hfilt, honly⟩ := exec_one_edge h rfl (edgeSpaced_down hs)
  exact ⟨t, ht, pack_word0 .., hfilt, honly⟩

/-- Settles O35: rows at least 8 apart keep the eight taps of each row apart. -/
theorem fohFiltersTheEdgeAtTheLeft : Obligations.FohFiltersTheEdgeAtTheLeft := by
  intro a sd elim ilim hevt s h
  have hs : 8 ≤ zext sd := of_decide_eq_true (spaced_of_defined h rfl)
  obtain ⟨t, ht, hfilt, honly⟩ := exec_one_edge h rfl (edgeSpaced_across hs)
  exact ⟨t, ht, pack_word0 .., hfilt, honly⟩

/-- Settles O36: the intermediate memories are those after one and after two units. -/
theorem fivFiltersThreeEdgesInOrder : Obligations.FivFiltersThreeEdgesInOrder := by
  intro a sd elim ilim hevt s h
  have hs : 16 ≤ zext sd := of_decide_eq_true (spaced_of_defined h rfl)
  obtain ⟨t, ht, hfilt, honly⟩ := exec_three_edges h rfl fun _ => edgeSpaced_down hs
  exact ⟨t, ht, pack_word0 .., hfilt, honly⟩

/-- Settles O37: the intermediate memories are those after one and after two units. -/
theorem fihFiltersThreeEdgesInOrder : Obligations.FihFiltersThreeEdgesInOrder := by
  intro a sd elim ilim hevt s h
  have hs : 16 ≤ zext sd := of_decide_eq_true (spaced_of_defined h rfl)
  obtain ⟨t, ht, hfilt, honly⟩ := exec_three_edges h rfl fun _ => edgeSpaced_across (by omega)
  exact ⟨t, ht, pack_word0 .., hfilt, honly⟩

/-! ## Edges that are masked off -/

/-- The units of a filter command filter its edges, in order. -/
theorem units_of_edgesOf {i : Instr} {e0s : List Int} {st ln : Int} {lim : Limits} (pf : Platform)
    (h : edgesOf i = some (e0s, st, ln, lim)) :
    ∃ k, (planOf i pf).units = e0s.map fun e0 => filterEdge e0 st ln k lim := by
  cases i <;> cases h <;> exact ⟨_, rfl⟩

theorem laneTap_readLane (m : Memory) (e0 st ln : Int) (l : Nat) {t : Int} (ht : t ∈ allTaps) :
    laneTap (readLane m e0 st ln l) t = pix m (tapAddr e0 st ln l t) := by
  simp only [allTaps, List.mem_cons, List.not_mem_nil, or_false] at ht
  rcases ht with rfl | rfl | rfl | rfl | rfl | rfl | rfl | rfl <;> rfl

theorem readLane_congr {m m' : Memory} (h : ∀ a, m.read a = m'.read a) (e0 st ln : Int) (l : Nat) :
    readLane m e0 st ln l = readLane m' e0 st ln l := by
  simp only [readLane, pix_eq, h]

theorem sampleByte_pix (m : Memory) (a : Int) : sampleByte (pix m a) = m.read a.toNat := by
  rw [sampleByte, pix_eq]
  simp

/-- Stores of what memory already holds change nothing. -/
theorem read_writeAll_of_held {ws : List Store} {m : Memory} (h : ∀ w ∈ ws, w.2 = m.read w.1.toNat) (b : Nat) :
    (m.writeAll ws).read b = m.read b := by
  by_cases hb : ∃ w ∈ ws, w.1.toNat = b
  · exact Memory.read_writeAll_same ws m b _ hb fun w hw e => e ▸ h w hw
  · exact Memory.read_writeAll_other ws m b fun w hw e => hb ⟨w, hw, e⟩

/-- An edge masked off in every lane stores what memory already holds. -/
theorem runUnit_filterEdge_of_masked {m : Memory} {e0 st ln : Int} {lim : Limits} (k : EdgeKernel)
    (h : ∀ l, l < 16 → laneMask lim (readLane m e0 st ln l) = false) (b : Nat) :
    (runUnit m (filterEdge e0 st ln k lim)).read b = m.read b := by
  refine read_writeAll_of_held (fun w hw => ?_) b
  simp only [filterEdge, List.mem_flatMap, List.mem_map, List.mem_range] at hw
  obtain ⟨l, hl, t, ht, rfl⟩ := hw
  rw [applyKernel_of_masked k (readLane_range _ _ _ _ _) (h l hl),
    laneTap_readLane _ _ _ _ _ (kernelTaps_allTaps k t ht), sampleByte_pix]

/-- Edges all masked off on one memory stay so, as each leaves memory alone. -/
theorem runUnits_filterEdge_of_masked {e0s : List Int} {m : Memory} {st ln : Int} {lim : Limits}
    (k : EdgeKernel) (h : ∀ e0 ∈ e0s, ∀ l, l < 16 → laneMask lim (readLane m e0 st ln l) = false) (b : Nat) :
    (runUnits m (e0s.map fun e0 => filterEdge e0 st ln k lim)).read b = m.read b := by
  induction e0s generalizing m with
  | nil => rfl
  | cons e0 e0s ih =>
    have hfirst := runUnit_filterEdge_of_masked k (h e0 List.mem_cons_self)
    rw [List.map_cons, runUnits_cons, ih fun e he l hl => ?_, hfirst]
    rw [readLane_congr hfirst]
    exact h e (List.mem_cons_of_mem e0 he) l hl

/-- Settles O38: the command's units are its edges, none of which changes a byte. -/
theorem maskedOffEdgesStayUnchanged : Obligations.MaskedOffEdgesStayUnchanged := by
  intro i e0s st ln lim s he h hmask
  obtain ⟨k, hunits⟩ := units_of_edgesOf s.platform he
  refine ⟨_, exec_of_defined h, fun a => ?_⟩
  rw [mem_of_completed, hunits]
  exact runUnits_filterEdge_of_masked k hmask a

end Sys2Proof.Machine
end

