-- ==== Sys2Proof/Proofs/DeblockLines.lean ====
section
/-! PROOFS. Lines of samples across the edges: what a filter command leaves in a line is a function of what the
line held, whichever way the lines run (42_deblock_filter R122, R129). -/

namespace Sys2Proof.Machine

open Sys2Proof.Safety

theorem mem_allTaps_iff (t : Int) : t ∈ allTaps ↔ -4 ≤ t ∧ t < 4 := by
  simp only [allTaps, List.mem_cons, List.not_mem_nil, or_false]
  omega

/-- Sixteen lines of samples, each across every edge a filter command works on: line `l` begins at
`base + l * lane`, and its samples are `step` apart (20_memory R33). -/
structure Lines where
  base : Int
  step : Int
  lane : Int

/-- Lines that run down the columns of rows `s` apart: FOV and FIV. -/
abbrev columns (a s : Int) : Lines := ⟨a, s, 1⟩

/-- Lines that run along rows `s` apart: FOH and FIH. -/
abbrev rows (a s : Int) : Lines := ⟨a, 1, s⟩

namespace Lines

/-- The address of sample `t` of line `l`. -/
def addr (g : Lines) (l : Nat) (t : Int) : Int := tapAddr g.base g.step g.lane l t

/-- The samples `lo` to `hi - 1` of the lines lie at addresses that are not negative, no two at the same. -/
structure Apart (g : Lines) (lo hi : Int) : Prop where
  nonneg : ∀ l : Nat, ∀ t : Int, l < 16 → lo ≤ t → t < hi → 0 ≤ g.addr l t
  inj : ∀ l l' : Nat, ∀ t t' : Int, l < 16 → l' < 16 → (lo ≤ t ∧ t < hi) → (lo ≤ t' ∧ t' < hi) →
    g.addr l t = g.addr l' t' → l = l' ∧ t = t'

/-- The edge before sample `d` of each line has been filtered between two memories. -/
def Filtered (g : Lines) (d : Int) (k : EdgeKernel) (lim : Limits) (m m' : Memory) : Prop :=
  EdgeFiltered m m' (g.base + d * g.step) g.step g.lane k lim

/-- The edges before the samples `ds` have been filtered one after another between two memories. -/
def FilteredInOrder (g : Lines) (k : EdgeKernel) (lim : Limits) : List Int → Memory → Memory → Prop
  | [], m, m' => m' = m
  | d :: ds, m, m' => ∃ m1, g.Filtered d k lim m m1 ∧ g.FilteredInOrder k lim ds m1 m'

/-- Line `l` of `g'` holds in `m'` what line `l` of `g` holds in `m`. -/
def Alike (g g' : Lines) (lo hi : Int) (l : Nat) (m m' : Memory) : Prop :=
  ∀ t, lo ≤ t → t < hi → pix m' (g'.addr l t) = pix m (g.addr l t)

/-- All taps of the edge before sample `d` are among the samples `lo` to `hi - 1`. -/
def EdgeInside (lo hi d : Int) : Prop := lo ≤ d - 4 ∧ d + 4 ≤ hi

/-! ## One edge -/

/-- Tap `k` of the edge before sample `d` is sample `d + k`. -/
theorem tapAddr_edge (g : Lines) (d k : Int) (l : Nat) :
    tapAddr (g.base + d * g.step) g.step g.lane l k = g.addr l (d + k) := by
  unfold addr tapAddr
  ring

theorem addr_columns (a s : Int) (l : Nat) (t : Int) : (columns a s).addr l t = a + t * s + l := by
  unfold addr tapAddr
  ring

theorem addr_rows (a s : Int) (l : Nat) (t : Int) : (rows a s).addr l t = a + l * s + t := by
  unfold addr tapAddr
  ring

/-- Lines that are alike give every edge inside them the same lane. -/
theorem readLane_of_alike {g g' : Lines} {lo hi d : Int} {l : Nat} {m m' : Memory}
    (h : g.Alike g' lo hi l m m') (hd : EdgeInside lo hi d) :
    readLane m' (g'.base + d * g'.step) g'.step g'.lane l =
      readLane m (g.base + d * g.step) g.step g.lane l := by
  obtain ⟨hlo, hhi⟩ := hd
  have htap : ∀ k : Int, -4 ≤ k → k ≤ 3 → pix m' (g'.addr l (d + k)) = pix m (g.addr l (d + k)) :=
    fun k hk hk' => h _ (by omega) (by omega)
  simp only [readLane, tapAddr_edge]
  congr 1 <;> exact htap _ (by decide) (by decide)

section
variable {g : Lines} {lo hi d : Int} {k : EdgeKernel} {lim : Limits} {m m1 : Memory} {l : Nat} {t : Int}
  (h : g.Filtered d k lim m m1) (hl : l < 16)
include h hl

/-- A sample that is a tap the kernel writes holds what the kernel gives. -/
theorem pix_of_written (ht : t - d ∈ kernelTaps k) :
    pix m1 (g.addr l t) =
      laneTap (applyKernel k lim (readLane m (g.base + d * g.step) g.step g.lane l)) (t - d) := by
  have hpix := h.1 l hl (t - d) ht
  rwa [tapAddr_edge, add_sub_cancel] at hpix

/-- Every other sample of the lines holds what it held. -/
theorem pix_of_not_written (hg : g.Apart lo hi) (hd : EdgeInside lo hi d) (hlo : lo ≤ t) (hhi : t < hi)
    (ht : t - d ∉ kernelTaps k) : pix m1 (g.addr l t) = pix m (g.addr l t) := by
  refine pix_congr (h.2 _ fun hin => ht ?_)
  obtain ⟨hd, hd'⟩ := hd
  rw [Int.toNat_of_nonneg (hg.nonneg l t hl hlo hhi)] at hin
  obtain ⟨l', hl', k', hk', he⟩ := (mem_edgeAddrs _ _ _ _ _).mp hin
  obtain ⟨hk0, hk1⟩ := allTaps_range (kernelTaps_allTaps k k' hk')
  rw [tapAddr_edge] at he
  obtain ⟨-, rfl⟩ := hg.inj l' l (d + k') t hl' hl ⟨by omega, by omega⟩ ⟨hlo, hhi⟩ he
  rwa [add_sub_cancel_left]

end

/-- Filtering the same edge of lines that are alike leaves them alike. -/
theorem Filtered.alike {g g' : Lines} {lo hi d : Int} {k : EdgeKernel} {lim : Limits} {m m1 m' m1' : Memory}
    {l : Nat} (hg : g.Apart lo hi) (hg' : g'.Apart lo hi) (hd : EdgeInside lo hi d) (hl : l < 16)
    (h : g.Filtered d k lim m m1) (h' : g'.Filtered d k lim m' m1') (hm : g.Alike g' lo hi l m m') :
    g.Alike g' lo hi l m1 m1' := by
  intro t hlo hhi
  by_cases ht : t - d ∈ kernelTaps k
  · rw [pix_of_written h' hl ht, pix_of_written h hl ht, readLane_of_alike hm hd]
  · rw [pix_of_not_written h' hl hg' hd hlo hhi ht, pix_of_not_written h hl hg hd hlo hhi ht, hm t hlo hhi]

/-- Edges filtered one after another in lines that are alike leave them alike. -/
theorem FilteredInOrder.alike {g g' : Lines} {lo hi : Int} {ds : List Int} {k : EdgeKernel} {lim : Limits}
    {m m1 m' m1' : Memory} {l : Nat} (hg : g.Apart lo hi) (hg' : g'.Apart lo hi)
    (hd : ∀ d ∈ ds, EdgeInside lo hi d) (hl : l < 16) (h : g.FilteredInOrder k lim ds m m1)
    (h' : g'.FilteredInOrder k lim ds m' m1') (hm : g.Alike g' lo hi l m m') : g.Alike g' lo hi l m1 m1' := by
  induction ds generalizing m m' with
  | nil =>
    cases h
    cases h'
    exact hm
  | cons d ds ih =>
    obtain ⟨n, hn, hrest⟩ := h
    obtain ⟨n', hn', hrest'⟩ := h'
    exact ih (fun e he => hd e (List.mem_cons_of_mem d he)) hrest hrest'
      (hn.alike hg hg' (hd d List.mem_cons_self) hl hn' hm)

/-! ## The lines of the four commands -/

/-- A command completes, and filters the edges before the samples `ds` of its lines, which are apart. -/
structure FilteredBy (g : Lines) (lo hi : Int) (ds : List Int) (k : EdgeKernel) (lim : Limits) (i : Instr)
    (s : State) : Prop where
  apart : g.Apart lo hi
  inside : ∀ d ∈ ds, EdgeInside lo hi d
  completes : ∃ t, exec i s = .next t ∧ g.FilteredInOrder k lim ds s.mem t.mem

/-- Two commands that filter the same edges of their lines leave alike each line they find alike. -/
theorem FilteredBy.alike {g g' : Lines} {lo hi : Int} {ds : List Int} {k : EdgeKernel} {lim : Limits}
    {i i' : Instr} {s s' : State} (h : g.FilteredBy lo hi ds k lim i s)
    (h' : g'.FilteredBy lo hi ds k lim i' s') :
    ∃ t t', exec i s = .next t ∧ exec i' s' = .next t' ∧
      ∀ l, l < 16 → g.Alike g' lo hi l s.mem s'.mem → g.Alike g' lo hi l t.mem t'.mem := by
  obtain ⟨t, ht, hfilt⟩ := h.completes
  obtain ⟨t', ht', hfilt'⟩ := h'.completes
  exact ⟨t, t', ht, ht', fun l hl => hfilt.alike h.apart h'.apart h.inside hl hfilt'⟩

theorem apart_columns {a s lo hi : Int} (hs : 16 ≤ s)
    (hpos : ∀ l : Nat, ∀ t : Int, l < 16 → lo ≤ t → t < hi → 0 ≤ (columns a s).addr l t) :
    (columns a s).Apart lo hi :=
  ⟨hpos, fun _ _ _ _ hl hl' _ _ => tapAddr_inj_down hs hl hl'⟩

theorem apart_rows {a s lo hi : Int} (hs : hi - lo ≤ s)
    (hpos : ∀ l : Nat, ∀ t : Int, l < 16 → lo ≤ t → t < hi → 0 ≤ (rows a s).addr l t) :
    (rows a s).Apart lo hi := by
  refine ⟨hpos, fun l l' t t' _ _ ht ht' h => ?_⟩
  rw [addr_rows, addr_rows] at h
  have := pitch_inj (x := t - lo) (y := t' - lo) (r := l) (q := l') hs (by omega) (by omega) (by linarith)
  omega

/-- The taps of the one edge of a command whose preconditions hold have no negative address. -/
theorem addr_nonneg_of_one_edge {g : Lines} {i : Instr} {s : State} {k : EdgeKernel} {lim : Limits} {sp : Bool}
    (h : Defined i s) (hp : planOf i s.platform = edgePlan [g.base] g.step g.lane k lim sp) (l : Nat) (t : Int)
    (hl : l < 16) (hlo : -4 ≤ t) (hhi : t < 4) : 0 ≤ g.addr l t :=
  taps_nonneg_of_defined h hp (List.mem_singleton_self _) _
    ((mem_edgeAddrs _ _ _ _ _).mpr ⟨l, hl, t, (mem_allTaps_iff t).mpr ⟨hlo, hhi⟩, rfl⟩)

section
variable {a sd : Word} {elim ilim hevt : Half} {s : State}

theorem filteredBy_fov (h : Defined (.fov a sd elim ilim hevt) s) :
    (columns (zext a) (zext sd)).FilteredBy (-4) 4 [0] .f6 (limitsOf elim ilim hevt)
      (.fov a sd elim ilim hevt) s := by
  have hs : 16 ≤ zext sd := of_decide_eq_true (spaced_of_defined h rfl)
  obtain ⟨t, ht, -, hfilt, -⟩ := fovFiltersTheEdgeAbove a sd elim ilim hevt s h
  refine ⟨apart_columns hs (addr_nonneg_of_one_edge h rfl), by simp [EdgeInside], t, ht, _, ?_, rfl⟩
  rwa [Filtered, zero_mul, add_zero]

theorem filteredBy_foh (h : Defined (.foh a sd elim ilim hevt) s) :
    (rows (zext a) (zext sd)).FilteredBy (-4) 4 [0] .f6 (limitsOf elim ilim hevt)
      (.foh a sd elim ilim hevt) s := by
  have hs : 8 ≤ zext sd := of_decide_eq_true (spaced_of_defined h rfl)
  obtain ⟨t, ht, -, hfilt, -⟩ := fohFiltersTheEdgeAtTheLeft a sd elim ilim hevt s h
  refine ⟨apart_rows hs (addr_nonneg_of_one_edge h rfl), by simp [EdgeInside], t, ht, _, ?_, rfl⟩
  rwa [Filtered, zero_mul, add_zero]

theorem filteredBy_fiv (h : Defined (.fiv a sd elim ilim hevt) s) :
    (columns (zext a) (zext sd)).FilteredBy 0 16 [4, 8, 12] .f4 (limitsOf elim ilim hevt)
      (.fiv a sd elim ilim hevt) s := by
  have hs : 16 ≤ zext sd := of_decide_eq_true (spaced_of_defined h rfl)
  have ha : 0 ≤ zext a := Int.natCast_nonneg _
  obtain ⟨t, ht, -, ⟨m1, m2, h4, h8, h12⟩, -⟩ := fivFiltersThreeEdgesInOrder a sd elim ilim hevt s h
  refine ⟨apart_columns hs fun l t _ hlo _ => ?_, by simp [EdgeInside], t, ht, m1, h4, m2, h8, _, h12, rfl⟩
  rw [addr_columns]
  positivity

theorem filteredBy_fih (h : Defined (.fih a sd elim ilim hevt) s) :
    (rows (zext a) (zext sd)).FilteredBy 0 16 [4, 8, 12] .f4 (limitsOf elim ilim hevt)
      (.fih a sd elim ilim hevt) s := by
  have hs : 16 ≤ zext sd := of_decide_eq_true (spaced_of_defined h rfl)
  have ha : 0 ≤ zext a := Int.natCast_nonneg _
  obtain ⟨t, ht, -, ⟨m1, m2, h4, h8, h12⟩, -⟩ := fihFiltersThreeEdgesInOrder a sd elim ilim hevt s h
  refine ⟨apart_rows hs fun l t _ hlo _ => ?_, by simp [EdgeInside], t, ht, m1, h4, m2, h8, _, h12, rfl⟩
  rw [addr_rows]
  positivity

end

/-! ## The statements about lines -/

theorem alike_allTaps_iff {g g' : Lines} {l : Nat} {m m' : Memory} :
    g.Alike g' (-4) 4 l m m' ↔ ∀ k ∈ allTaps, pix m' (g'.addr l k) = pix m (g.addr l k) := by
  simp only [Alike, mem_allTaps_iff, and_imp]

theorem alike_macroblock_iff {g g' : Lines} {l : Nat} {m m' : Memory} :
    g.Alike g' 0 16 l m m' ↔ ∀ r : Nat, r < 16 → pix m' (g'.addr l r) = pix m (g.addr l r) := by
  refine ⟨fun h r hr => h r (by omega) (by omega), fun h t hlo hhi => ?_⟩
  lift t to Nat using hlo
  exact h t (by omega)

end Lines

open Lines

/-- Settles O39: the columns of one state and the rows of the other are lines that are alike. -/
theorem orientationDoesNotChangeArithmetic : Obligations.OrientationDoesNotChangeArithmetic := by
  intro a a' sv sh elim ilim hevt s s'
  refine ⟨fun h h' hm => ?outer, fun h h' hm => ?inner⟩
  case outer =>
    obtain ⟨t, t', ht, ht', hline⟩ := (filteredBy_fov h).alike (filteredBy_foh h')
    simp only [alike_allTaps_iff, addr_columns, addr_rows] at hline
    exact ⟨t, t', ht, ht', fun l hl => hline l hl (hm l hl)⟩
  case inner =>
    obtain ⟨t, t', ht, ht', hline⟩ := (filteredBy_fiv h).alike (filteredBy_fih h')
    simp only [alike_macroblock_iff, addr_columns, addr_rows] at hline
    exact ⟨t, t', ht, ht', fun l r hl => hline l hl (fun r => hm l r hl) r⟩

/-- Settles O40: line `l` is alike in the two states. -/
theorem lanesAreIndependent : Obligations.LanesAreIndependent := by
  intro a sd elim ilim hevt s s' l hl hp
  refine ⟨fun h hm => ?fov, fun h hm => ?foh, fun h hm => ?fiv, fun h hm => ?fih⟩
  case fov =>
    obtain ⟨t, t', ht, ht', hline⟩ := (filteredBy_fov h).alike (filteredBy_fov (defined_congr hp h))
    simp only [alike_allTaps_iff, addr_columns] at hline
    exact ⟨t, t', ht, ht', hline l hl hm⟩
  case foh =>
    obtain ⟨t, t', ht, ht', hline⟩ := (filteredBy_foh h).alike (filteredBy_foh (defined_congr hp h))
    simp only [alike_allTaps_iff, addr_rows] at hline
    exact ⟨t, t', ht, ht', hline l hl hm⟩
  case fiv =>
    obtain ⟨t, t', ht, ht', hline⟩ := (filteredBy_fiv h).alike (filteredBy_fiv (defined_congr hp h))
    simp only [alike_macroblock_iff, addr_columns] at hline
    exact ⟨t, t', ht, ht', hline l hl hm⟩
  case fih =>
    obtain ⟨t, t', ht, ht', hline⟩ := (filteredBy_fih h).alike (filteredBy_fih (defined_congr hp h))
    simp only [alike_macroblock_iff, addr_rows] at hline
    exact ⟨t, t', ht, ht', hline l hl hm⟩

end Sys2Proof.Machine
end

