-- ==== Sys2Proof/Proofs/Refusals.lean ====
section
/-! PROOFS. The refusal that a broken precondition brings (60_exceptions R141, R147). -/

namespace Sys2Proof.Machine

open Sys2Proof.Safety

/-- A search for what breaks a rule finds something that breaks it in any list that does not keep the rule. -/
theorem exists_find?_eq_some_of_not_forall {α : Type} {as : List α} {P : α → Prop} {p : α → Bool}
    (hp : ∀ a, p a = true ↔ ¬P a) (h : ¬∀ a ∈ as, P a) : ∃ a ∈ as, ¬P a ∧ as.find? p = some a := by
  have hsome : (as.find? p).isSome = true := by
    rw [List.find?_isSome]
    simpa only [hp, not_forall, exists_prop] using h
  obtain ⟨a, ha⟩ := Option.isSome_iff_exists.mp hsome
  exact ⟨a, List.mem_of_find?_eq_some ha, (hp a).mp (List.find?_some ha), ha⟩

theorem outside_eq_true_iff (pf : Platform) (a : Int) :
    (!(inRange a && admits pf a)) = true ↔ ¬(0 ≤ a ∧ a < 2 ^ 32 ∧ admits pf a = true) := by
  rw [Bool.not_eq_true', ← Bool.not_eq_true, Bool.and_eq_true, inRange_eq_true, and_assoc]

/-- A command whose checks name a refusal is refused under that name. -/
theorem exec_of_verdict_some {i : Instr} {s : State} {r : Refusal}
    (h : verdict (planOf i s.platform) s.platform = some r) : exec i s = .refused r := by
  rw [exec_eq_runCommand]
  exact runCommand_of_verdict_some h

/-- Settles O45: the command answers what its checks name, and the recorded address is the one that the check's
search finds. -/
theorem firstBrokenPreconditionDecides : Obligations.FirstBrokenPreconditionDecides := by
  rintro i s p rfl
  refine ⟨fun hb => ?parameter, fun hb hm => ?coefs, fun hb hm hx => ?range,
    fun hb hm hx hs => exec_of_verdict_some (verdict_overlapping hb hm hx hs), fun hb hm hx hs hd => ?devices⟩
  case parameter =>
    obtain ⟨hu, hlt⟩ := Classical.not_imp.mp hb
    exact exec_of_verdict_some (verdict_badParameter ⟨hu, Nat.lt_of_not_le hlt⟩)
  case coefs =>
    obtain ⟨a, ha, hodd, hfind⟩ := exists_find?_eq_some_of_not_forall (fun _ => bne_iff_ne) hm
    exact ⟨a, ha, hodd, exec_of_verdict_some (verdict_misalignedCoef hb hfind)⟩
  case range =>
    obtain ⟨a, ha, hout, hfind⟩ := exists_find?_eq_some_of_not_forall (outside_eq_true_iff s.platform) hx
    exact ⟨a, ha, hout, exec_of_verdict_some (verdict_addressRange hb hm hfind)⟩
  case devices =>
    have hdev : ∃ a ∈ planFootprint (planOf i s.platform), isDevice s.platform a = true := by
      simpa using hd
    exact exec_of_verdict_some (verdict_notMemory hb hm hx hs hdev)

end Sys2Proof.Machine
end

