-- ==== Sys2Proof/Proofs/Completion.lean ====
section
/-! PROOFS. Completion is signalled by the step that runs a command and by no other (60_exceptions R145,
70_reset R157). -/

namespace Sys2Proof.Machine

/-- Settles O53: a latched command runs, shares memory with an access, or is abandoned, and each of them names
its next state. -/
theorem completionIsSignalledOnce : Obligations.CompletionIsSignalledOnce := by
  intro s t d hl h
  rcases step_next_cases h with ⟨hidle, -⟩ | ⟨_, i, -, -, he⟩ | ⟨_, i, x, rest, -, -, hin, hc⟩ |
    ⟨_, i, rest, -, -, hin, ha⟩
  · rw [hidle] at hl
    cases hl
  · obtain ⟨-, rfl⟩ := (exec_next_iff i s t).mp he
    exact .inl ⟨rfl, rfl, rfl, rfl⟩
  · obtain ⟨-, -, rfl⟩ := (contend_next_iff _ _ _ _).mp hc
    exact .inr (.inl ⟨x, hin, hl, rfl, rfl⟩)
  · obtain ⟨-, rfl⟩ := (abandon_next_iff _ _ _).mp ha
    exact .inr (.inr ⟨hin, rfl, rfl, rfl⟩)

end Sys2Proof.Machine
end

