-- ==== Sys2Proof/Proofs/Preconditions.lean ====
section
/-! PROOFS. The preconditions of a command and whether it completes, and those of them that its own fields
decide (60_exceptions R143, R149; 70_reset R159, R170). -/

namespace Sys2Proof.Machine

open Sys2Proof.Safety

theorem defined_of_exec_next {i : Instr} {s t : State} (h : exec i s = .next t) : Defined i s := by
  obtain ⟨hv, -⟩ := (exec_next_iff i s t).mp h
  exact (verdict_eq_none_iff _ _).mp hv

/-- Settles O42: the checks pass exactly when every precondition holds, and a command that passes them runs to
completion. -/
theorem commandsCompleteExactlyWhenDefined : Obligations.CommandsCompleteExactlyWhenDefined := fun _ _ =>
  ⟨fun ⟨_, ht⟩ => defined_of_exec_next ht, fun h => ⟨_, exec_of_defined h⟩⟩

/-- A command whose preconditions do not hold is refused (60_exceptions R143). -/
theorem exec_refused_of_not_defined {i : Instr} {s : State} (h : ¬Defined i s) : ∃ r, exec i s = .refused r := by
  rw [Defined, ← verdict_eq_none_iff] at h
  obtain ⟨r, hr⟩ := Option.ne_none_iff_exists'.mp h
  exact ⟨r, exec_of_verdict_some hr⟩

/-! ## What the fields alone decide (70_reset R159 P3, P5) -/

/-- A field holds an even address exactly when its value as an address is even. -/
theorem even_of_zext_even {n : Nat} {v : BitVec n} (h : zext v % 2 = 0) : (v.toNat % 2 == 0) = true := by
  rw [zext] at h
  rw [beq_iff_eq]
  omega

/-- A field is as large as its value. -/
theorem toNat_wide_of_zext {n : Nat} {v : BitVec n} {m : Nat} (h : decide ((m : Int) ≤ zext v) = true) :
    decide (m ≤ v.toNat) = true :=
  decide_eq_true (Int.ofNat_le.mp (of_decide_eq_true h))

/-- Precondition P3 makes the coefficient fields even. -/
theorem coefAligned_of_aligned {i : Instr} {pf : Platform} (h : Aligned (planOf i pf)) : i.coefAligned = true := by
  cases i with
  | itx two a b => exact even_of_zext_even (h _ (List.mem_singleton_self _))
  | iwht a b =>
    exact (Bool.and_eq_true _ _).mpr
      ⟨even_of_zext_even (h _ List.mem_cons_self),
        even_of_zext_even (h _ (List.mem_cons_of_mem _ List.mem_cons_self))⟩
  | itxdc a b => exact even_of_zext_even (h _ (List.mem_singleton_self _))
  | itxac3 a b => exact even_of_zext_even (h _ (List.mem_singleton_self _))
  | fov | foh | fiv | fih => rfl

/-- Precondition P5 makes the stride field wide. -/
theorem strideWide_of_spaced {i : Instr} {pf : Platform} (h : (planOf i pf).spaced = true) :
    i.strideWide = true := by
  cases i with
  | itx | iwht | itxdc | itxac3 => rfl
  | fov | foh | fiv | fih => exact toNat_wide_of_zext h

theorem wellFormed_of_defined {i : Instr} {s : State} (h : Defined i s) : i.wellFormed = true := by
  obtain ⟨-, halign, -, ⟨hspaced, -⟩, -⟩ := h
  exact (Bool.and_eq_true _ _).mpr ⟨coefAligned_of_aligned halign, strideWide_of_spaced hspaced⟩

/-- Settles O46: a command whose preconditions hold is well formed, so one that is not has a broken
precondition in every state. -/
theorem illFormedCommandsAreRefused : Obligations.IllFormedCommandsAreRefused := by
  intro i s hwf
  refine exec_refused_of_not_defined fun h => ?_
  rw [wellFormed_of_defined h] at hwf
  cases hwf

end Sys2Proof.Machine
end

