-- ==== Sys2Proof/Proofs/Abandonment.lean ====
section
/-! PROOFS. A command abandoned by a reset: what its first units leave in its write footprint (70_reset R157,
log 13). -/

namespace Sys2Proof.Machine

open Sys2Proof.Safety

/-! ## The first units of a command -/

theorem memAfter_zero (p : Plan) (m : Memory) : memAfter p m 0 = m := rfl

theorem memAfter_of_length_le {p : Plan} {k : Nat} (h : p.units.length ≤ k) (m : Memory) :
    memAfter p m k = runUnits m p.units := by
  rw [memAfter, List.take_of_length_le h]

/-- A count beyond the command's units is as good as all of them. -/
theorem memAfter_min_length (p : Plan) (m : Memory) (k : Nat) :
    memAfter p m (min k p.units.length) = memAfter p m k := by
  rw [memAfter, memAfter, ← List.take_eq_take_min]

/-- Apart from FIV and FIH, only ITX with TWO can be left in the middle: between its two blocks
(20_memory R40). -/
theorem two_blocks_of_partly_run {i : Instr} {pf : Platform} {k : Nat}
    (hi : ∀ a sd e l h, i ≠ .fiv a sd e l h ∧ i ≠ .fih a sd e l h) (h0 : 0 < k)
    (hk : k < (planOf i pf).units.length) : k = 1 ∧ ∃ a b, i = .itx true a b := by
  have not_one_unit : (planOf i pf).units.length ≠ 1 := by omega
  cases i with
  | itx two a b =>
    cases two with
    | false => exact absurd rfl not_one_unit
    | true => exact ⟨Nat.le_antisymm (Nat.le_of_lt_succ hk) h0, a, b, rfl⟩
  | iwht | itxdc | itxac3 | fov | foh => exact absurd rfl not_one_unit
  | fiv a sd e l h => exact absurd rfl (hi a sd e l h).1
  | fih a sd e l h => exact absurd rfl (hi a sd e l h).2

/-- Between the two blocks of ITX, the first region is as the command leaves it and the second as it was. -/
theorem memAfter_first_block {a b : Word} {s : State} (h : Defined (.itx true a b) s) {p : Int}
    (hp : p ∈ (planOf (.itx true a b) s.platform).writes) :
    (memAfter (planOf (.itx true a b) s.platform) s.mem 1).read p.toNat = s.mem.read p.toNat ∨
    (memAfter (planOf (.itx true a b) s.platform) s.mem 1).read p.toNat =
      (runUnits s.mem (planOf (.itx true a b) s.platform).units).read p.toNat := by
  rw [memAfter, itx_units, if_pos rfl, List.take_succ_cons, List.take_zero, runUnits_singleton, runUnits_cons,
    runUnits_singleton]
  rcases List.mem_append.mp hp with hfirst | hsecond
  · exact .inr (second_block_keeps_first h _ p hfirst).symm
  · exact .inl (first_block_keeps_second h p hsecond)

/-- However many of the units have run, a byte of the write footprint of a command other than FIV and FIH is
the old one or the one the command would have written. -/
theorem memAfter_old_or_new {i : Instr} {s : State} (h : Defined i s)
    (hi : ∀ a sd e l h, i ≠ .fiv a sd e l h ∧ i ≠ .fih a sd e l h) (k : Nat) {p : Int}
    (hp : p ∈ (planOf i s.platform).writes) :
    (memAfter (planOf i s.platform) s.mem k).read p.toNat = s.mem.read p.toNat ∨
    (memAfter (planOf i s.platform) s.mem k).read p.toNat =
      (runUnits s.mem (planOf i s.platform).units).read p.toNat := by
  rcases Nat.eq_zero_or_pos k with rfl | h0
  · exact .inl rfl
  rcases Nat.lt_or_ge k (planOf i s.platform).units.length with hk | hk
  · obtain ⟨rfl, a, b, rfl⟩ := two_blocks_of_partly_run hi h0 hk
    exact memAfter_first_block h hp
  · exact .inr (by rw [memAfter_of_length_le hk])

/-! ## The step that abandons a command -/

/-- A busy PRE whose host's next input is a reset abandons its command. -/
theorem step_of_busy_of_reset {s : State} {d : Descriptor} {i : Instr} {rest : List HostEvent}
    (hl : s.latch = some d) (hd : decode d = .ok i) (hin : s.inbox = .reset :: rest) :
    step s = abandon (planOf i s.platform) { s with inbox := rest } := by
  rw [step_of_busy hl hd, busyStep, hin]

/-- Each byte that an abandoned command may write is as the first of its units left it, as many as the byte's own
free value says (log 13). -/
theorem read_abandonedStores {p : Plan} {s : State} (hpos : ∀ a ∈ p.writes, 0 ≤ a) {a : Int}
    (ha : a ∈ p.writes) : (s.mem.writeAll (abandonedStores p s)).read a.toNat =
      (memAfter p s.mem (Config.unitsDone s.draws a.toNat)).read a.toNat :=
  Memory.read_writeAll_map p.writes
    (fun a => (memAfter p s.mem (Config.unitsDone s.draws a.toNat)).read a.toNat) s.mem a hpos ha

/-- Settles O54: the step is `abandon`, which leaves each byte as the first so many units left it; of two blocks
side by side neither writes what the other does, so each of their bytes is old or new. -/
theorem abandonedCommandMixesOldAndNew : Obligations.AbandonedCommandMixesOldAndNew := by
  intro s d i rest hl hd hin h
  have habandon := (abandon_next_iff (planOf i s.platform) { s with inbox := rest } _).mpr
    ⟨(verdict_eq_none_iff _ _).mpr h, rfl⟩
  have hread := fun a => read_abandonedStores (s := { s with inbox := rest }) (a := a) (writes_nonneg_of_defined h)
  refine ⟨_, _, (step_of_busy_of_reset hl hd hin).trans habandon, exec_of_defined h, rfl, rfl, rfl, rfl,
    fun a ha => ?firstUnits, fun hi a ha => ?oldOrNew, (abandon_frame habandon).2, memAfter_zero _ _,
    memAfter_of_length_le le_rfl _⟩
  case firstUnits =>
    refine ⟨_, Nat.min_le_right (Config.unitsDone s.draws a.toNat) _, ?_⟩
    rw [memAfter_min_length]
    exact hread a ha
  case oldOrNew =>
    rw [hread a ha]
    exact memAfter_old_or_new h hi _ ha

end Sys2Proof.Machine
end
